-- ==== Sys2Proof/Word.lean ====
section
/-! DEFINITION. The word type of the block (00_scope.md R9, R10). -/

namespace Sys2Proof

/-- A word: 32 bits, unsigned (00_scope.md R9). -/
abbrev Word := BitVec 32

/-- A byte of the byte strings of the hash standard (20_memory.md R57 to R59). -/
abbrev Byte := BitVec 8

/-- A lane vector: one word per lane, lane 0 first (00_scope.md R10). Its length is the
instance's `LANES`; that every register keeps that length is part of `State.Inv`. -/
abbrev LaneVec := List Word

end Sys2Proof
end

