-- ==== Sys2Proof/Config.lean ====
section
/-! DEFINITION. What an instance fixes (00_scope.md section 4) and the values the spec leaves
free (93_implementation_defined.md U1, U2). -/

namespace Sys2Proof

/-- The block's one implementation parameter `LANES`, restricted to 1, 4 and 8 (00_scope.md R6). -/
inductive LaneWidth where
  | one
  | four
  | eight
  deriving DecidableEq, Repr

/-- The number of lanes of a width. -/
def LaneWidth.count : LaneWidth → Nat
  | .one => 1
  | .four => 4
  | .eight => 8

namespace Config

/-- `STATE_WORDS`, table T-00.1: words in the state vector, in a quintuple and in a digest. -/
def stateWords : Nat := 5

/-- `BLOCK_WORDS`, table T-00.1: words in a message block per lane. -/
def blockWords : Nat := 16

/-- `BRANCH_ROUNDS`, table T-00.1: round applications per branch. -/
def branchRounds : Nat := 80

/-- `ROUNDS`, table T-00.1: round applications per call. -/
def rounds : Nat := 160

/-- `GROUP`, table T-00.1: rounds per base-function group. -/
def group : Nat := 16

/-- A word the spec leaves unspecified (10_state.md R35, 93_implementation_defined.md U1, U2):
the `n`-th such read of a run is `unspecifiedWord n`. A FREE VALUE: it has no body, so nothing
can be proved of it (log 3). One sequence serves every instance and every run (log 20). -/
opaque unspecifiedWord : Nat → Word

/-- A round counter the spec leaves unspecified after hardware reset (10_state.md R26, R35):
any integer in 0..80. A FREE VALUE, as above (logs 4 and 20). -/
opaque unspecifiedCount : Nat → Fin 81

end Config

end Sys2Proof
end

