-- ==== Sys2Proof/Syntax.lean ====
section
/-! DEFINITION. The instructions (30_encoding.md R70, R76): one constructor for each row of
spec/opcode_table.json. Beside them what selects the steps that have no encoding: the branches,
the host actions (10_state.md table T-10.2) and the turns. -/

namespace Sys2Proof

/-- The five base functions (41_base_functions_round.md R110 to R114). -/
inductive BaseFn where
  | f1
  | f2
  | f3
  | f4
  | f5
  deriving DecidableEq, Repr

/-- The two branches (00_scope.md R14). -/
inductive Branch where
  | left
  | right
  deriving DecidableEq, Repr

/-- The other branch. -/
def Branch.other : Branch → Branch
  | .left => .right
  | .right => .left

/-- The twenty encoded members of the instruction set (30_encoding.md R76). Formats P and F carry
no operands (R74, R75); format S carries the additive constant, the block-word index and the
rotate amount (R71). Every term is well formed: the operand types have exactly the legal values. -/
inductive Instr where
  | broadcast
  | loadRows
  | storeRows
  | and
  | or
  | xor
  | not
  | add32
  | rotl
  | byteswap
  | f1
  | f2
  | f3
  | f4
  | f5
  | roundF1 (k : Word) (idx : BitVec 4) (rot : BitVec 5)
  | roundF2 (k : Word) (idx : BitVec 4) (rot : BitVec 5)
  | roundF3 (k : Word) (idx : BitVec 4) (rot : BitVec 5)
  | roundF4 (k : Word) (idx : BitVec 4) (rot : BitVec 5)
  | roundF5 (k : Word) (idx : BitVec 4) (rot : BitVec 5)
  deriving DecidableEq, Repr

/-- The micro-instruction `ROUND.F<fn> k, x<idx>, rot` (41_base_functions_round.md R119). -/
def Instr.round (fn : BaseFn) (k : Word) (idx : BitVec 4) (rot : BitVec 5) : Instr :=
  match fn with
  | .f1 => .roundF1 k idx rot
  | .f2 => .roundF2 k idx rot
  | .f3 => .roundF3 k idx rot
  | .f4 => .roundF4 k idx rot
  | .f5 => .roundF5 k idx rot

/-- The format-F instruction that names a base function (30_encoding.md R75). -/
def Instr.function : BaseFn → Instr
  | .f1 => .f1
  | .f2 => .f2
  | .f3 => .f3
  | .f4 => .f4
  | .f5 => .f5

/-- The fields of a schedule entry: function, constant, index, rotate (30_encoding.md R71). -/
structure Entry where
  fn  : BaseFn
  k   : Word
  idx : BitVec 4
  rot : BitVec 5
  deriving DecidableEq, Repr

/-- The schedule entry of a `ROUND` micro-instruction; no other instruction has one. -/
def Instr.entry? : Instr → Option Entry
  | .roundF1 k idx rot => some ⟨.f1, k, idx, rot⟩
  | .roundF2 k idx rot => some ⟨.f2, k, idx, rot⟩
  | .roundF3 k idx rot => some ⟨.f3, k, idx, rot⟩
  | .roundF4 k idx rot => some ⟨.f4, k, idx, rot⟩
  | .roundF5 k idx rot => some ⟨.f5, k, idx, rot⟩
  | .broadcast => none
  | .loadRows => none
  | .storeRows => none
  | .and => none
  | .or => none
  | .xor => none
  | .not => none
  | .add32 => none
  | .rotl => none
  | .byteswap => none
  | .f1 => none
  | .f2 => none
  | .f3 => none
  | .f4 => none
  | .f5 => none

/-- The four host actions (10_state.md table T-10.2): lane `i`, index `j`, word `w`. -/
inductive HostAction where
  | writeIn (i j : Nat) (w : Word)
  | start
  | readStatus
  | readOut (i j : Nat)
  deriving DecidableEq, Repr

/-- What moves next (log 5). `engine pref`: the engine, which takes a ROUND step of the branch
`pref` when both branches have one (42_round_engine.md R129; `none`: the default order of R143).
`host a`: the host acts (10_state.md R36). `reset`: hardware reset (70_reset_and_hazards.md R180).
`lvop code` and `fn code`: MODEL'S OWN turns, no step of the spec: a format-P or format-F
instruction is run on its own (log 7). -/
inductive Turn where
  | engine (pref : Option Branch)
  | host (a : HostAction)
  | reset
  | lvop (code : BitVec 4)
  | fn (code : BitVec 3)
  deriving DecidableEq, Repr

/-- A turn that is a step of the spec: the model's own turns `lvop` and `fn` are not (log 7). -/
def Turn.ofSpec : Turn → Bool
  | .engine _ => true
  | .host _ => true
  | .reset => true
  | .lvop _ => false
  | .fn _ => false

end Sys2Proof
end

