-- ==== Sys2Proof/WellFormed.lean ====
section
/-! DEFINITION. Well-formedness of what is not well formed by its type: a lane count
(00_scope.md R8), a schedule (42_round_engine.md R139) and a host action's indices
(10_state.md table T-10.2). -/

namespace Sys2Proof

/-- The lane width of a lane count; none outside 1, 4 and 8 (00_scope.md R8). -/
def LaneWidth.ofCount? (n : Nat) : Option LaneWidth :=
  if n = 1 then some .one else if n = 4 then some .four else if n = 8 then some .eight else none

/-- Whether a lane count is one an instance can have (00_scope.md R8). -/
def lanesWf (n : Nat) : Bool :=
  (LaneWidth.ofCount? n).isSome

/-- The base function with a number 1..5. -/
def BaseFn.ofNumber? : Nat → Option BaseFn
  | 1 => some .f1
  | 2 => some .f2
  | 3 => some .f3
  | 4 => some .f4
  | 5 => some .f5
  | _ => none

/-- The number of the base function of ROM address `a` (42_round_engine.md R131): `g + 1` for a
left address, `5 - g` for a right one, `g` the group of its round. -/
def scheduleFn (a : Nat) : Nat :=
  if a < 80 then a / 16 + 1 else 5 - (a - 80) / 16

/-- Whether a list of block-word indices is a permutation of 0..15 (42_round_engine.md R135). -/
def isIndexPermutation (l : List Nat) : Bool :=
  l.length == 16 && (List.range 16).all (l.contains ·)

/-- The groups of sixteen entries, as many as `fuel` says. -/
def groupsOf16 (l : List Entry) : Nat → List (List Entry)
  | 0 => []
  | fuel + 1 => l.take 16 :: groupsOf16 (l.drop 16) fuel

/-- The schedule check of 42_round_engine.md R139 on decoded entries: 160 entries, the function
of each as R131 gives it, each group's sixteen indices a permutation of 0..15. (That every `fn` is
in 1..5 and the reserved bits are 0 is what decoding the entry checks, 30_encoding.md R77.) -/
def scheduleWf (es : List Entry) : Bool :=
  es.length == 160
    && ((List.range 160).zip es).all (fun p => BaseFn.ofNumber? (scheduleFn p.1) == some p.2.fn)
    && (groupsOf16 es 10).all (fun g => isIndexPermutation (g.map (fun e => e.idx.toNat)))

/-- The index ranges of a host action (10_state.md table T-10.2). -/
def HostAction.wf (lanes : Nat) : HostAction → Bool
  | .writeIn i j _ => decide (i < lanes) && decide (j < 16)
  | .start => true
  | .readStatus => true
  | .readOut i j => decide (i < lanes) && decide (j < 5)

end Sys2Proof
end

