-- ==== Sys2Proof/Decode.lean ====
section
/-! DEFINITION. The decoder and the encoder of the three formats (30_encoding.md R70 to R77).
Each format has one fixed length; which format a code is of is known from where it stands, never
from its bits (R70, R78). -/

namespace Sys2Proof

/-- A code word of one of the three formats (30_encoding.md R70): P, 4 bits; F, 3 bits; S, 48 bits. -/
inductive Code where
  | p (w : BitVec 4)
  | f (w : BitVec 3)
  | s (w : BitVec 48)
  deriving DecidableEq, Repr

/-- Why a code is invalid: the reserved encodings (30_encoding.md R77). DESIGN CHOICE: that four reasons
are told apart; R77 says only that a decoder answers "invalid" (log 22). -/
inductive DecodeError where
  | reservedLvop
  | reservedFn
  | rsv1NotZero
  | rsv0NotZero
  deriving DecidableEq, Repr

/-- Format F: the base function a 3-bit identifier selects (30_encoding.md R75). -/
def decodeFn (w : BitVec 3) : Option BaseFn :=
  BaseFn.ofNumber? w.toNat

/-- Format P: the primitive a 4-bit `LVOP` names (30_encoding.md R74, table T-30.2). -/
def decodeLvop (w : BitVec 4) : Option Instr :=
  match w.toNat with
  | 0 => some .broadcast
  | 1 => some .loadRows
  | 2 => some .storeRows
  | 3 => some .and
  | 4 => some .or
  | 5 => some .xor
  | 6 => some .not
  | 7 => some .add32
  | 8 => some .rotl
  | 9 => some .byteswap
  | _ => none

/-- Bit 47 of a schedule entry (30_encoding.md table T-30.1). -/
def entryRsv1 (w : BitVec 48) : BitVec 1 := w.extractLsb' 47 1

/-- Bits 46:44 of a schedule entry, the base-function-id. -/
def entryFn (w : BitVec 48) : BitVec 3 := w.extractLsb' 44 3

/-- Bits 43:12 of a schedule entry, the additive constant. -/
def entryK (w : BitVec 48) : Word := w.extractLsb' 12 32

/-- Bits 11:8 of a schedule entry, the block-word index. -/
def entryIdx (w : BitVec 48) : BitVec 4 := w.extractLsb' 8 4

/-- Bits 7:5 of a schedule entry. -/
def entryRsv0 (w : BitVec 48) : BitVec 3 := w.extractLsb' 5 3

/-- Bits 4:0 of a schedule entry, the rotate amount. -/
def entryRot (w : BitVec 48) : BitVec 5 := w.extractLsb' 0 5

/-- Format S: a schedule entry (30_encoding.md R71, R72; reserved encodings R77). DESIGN CHOICE: an entry
with several reserved fields is given one reason, `rsv1` before `rsv0` before `fn`; R77 and V-D70 say
only "invalid" (log 22). -/
def decodeEntry (w : BitVec 48) : Except DecodeError Instr :=
  if entryRsv1 w ≠ 0 then .error .rsv1NotZero
  else if entryRsv0 w ≠ 0 then .error .rsv0NotZero
  else match decodeFn (entryFn w) with
    | some fn => .ok (.round fn (entryK w) (entryIdx w) (entryRot w))
    | none => .error .reservedFn

/-- The total decoder: an instruction, or "invalid" (30_encoding.md R77) with the model's name of the
reason (log 22). -/
def decode : Code → Except DecodeError Instr
  | .p w => match decodeLvop w with
    | some i => .ok i
    | none => .error .reservedLvop
  | .f w => match decodeFn w with
    | some fn => .ok (.function fn)
    | none => .error .reservedFn
  | .s w => decodeEntry w

/-- The number of a base function (30_encoding.md R75). -/
def BaseFn.number : BaseFn → Nat
  | .f1 => 1
  | .f2 => 2
  | .f3 => 3
  | .f4 => 4
  | .f5 => 5

/-- The format-F code of a base function, its number in 3 bits (30_encoding.md R75). -/
def BaseFn.code : BaseFn → BitVec 3
  | .f1 => 0b001
  | .f2 => 0b010
  | .f3 => 0b011
  | .f4 => 0b100
  | .f5 => 0b101

/-- A schedule entry from its fields, bit 47 first (30_encoding.md table T-30.1): `rsv1`, `fn`, `k`,
`idx`, `rsv0`, `rot`. Its value is `fn * 2^44 + k * 2^12 + idx * 2^8 + rot` (R72). -/
def encodeEntry (fn : BaseFn) (k : Word) (idx : BitVec 4) (rot : BitVec 5) : BitVec 48 :=
  0#1 ++ fn.code ++ k ++ idx ++ 0#3 ++ rot

/-- The encoder: the code word of an instruction (30_encoding.md R71, R72, R74, R75). -/
def encode : Instr → Code
  | .broadcast => .p 0
  | .loadRows => .p 1
  | .storeRows => .p 2
  | .and => .p 3
  | .or => .p 4
  | .xor => .p 5
  | .not => .p 6
  | .add32 => .p 7
  | .rotl => .p 8
  | .byteswap => .p 9
  | .f1 => .f 1
  | .f2 => .f 2
  | .f3 => .f 3
  | .f4 => .f 4
  | .f5 => .f 5
  | .roundF1 k idx rot => .s (encodeEntry .f1 k idx rot)
  | .roundF2 k idx rot => .s (encodeEntry .f2 k idx rot)
  | .roundF3 k idx rot => .s (encodeEntry .f3 k idx rot)
  | .roundF4 k idx rot => .s (encodeEntry .f4 k idx rot)
  | .roundF5 k idx rot => .s (encodeEntry .f5 k idx rot)

/-- The code word that `nbits` bits `w` of the opcode table stand for. A table row of format S has
48 bits, of format P 4 and of format F 3. Counted in whole bytes P and F both have 8 bits, and
their codes overlap (30_encoding.md R74, R75): 8 bits are read as format P (log 8). Bits that are
not in the format make it no code at all. -/
def tableCode (nbits w : Nat) : Option Code :=
  if nbits = 48 then (if w < 2 ^ 48 then some (.s (BitVec.ofNat 48 w)) else none)
  else if nbits = 3 then (if w < 8 then some (.f (BitVec.ofNat 3 w)) else none)
  else if nbits = 4 ∨ nbits = 8 then (if w < 16 then some (.p (BitVec.ofNat 4 w)) else none)
  else none

/-- The instruction the decoder reads from `nbits` bits `w`, numbered as the opcode table numbers
them. An entry is fetched whole by entry address, so there is no byte order in it (20_memory.md R57). -/
def decodeTableWord (nbits w : Nat) : Option Instr :=
  match tableCode nbits w with
  | some c => match decode c with
    | .ok i => some i
    | .error _ => none
  | none => none

end Sys2Proof
end

