-- ==== Sys2Proof/Machine/Schedule.lean ====
section
/-! DEFINITION. The numeric tables of the algorithm and the contents of the two ROMs
(42_round_engine.md R131 to R139). The spec marks the numbers as taken from general knowledge of
the RIPEMD-160 standard (93_implementation_defined.md G1 to G5, log 12). -/

namespace Sys2Proof.Machine

/-- The initial constants, the contents of `IVROM` (42_round_engine.md R132). -/
def ivTable : List Word := [0x67452301, 0xEFCDAB89, 0x98BADCFE, 0x10325476, 0xC3D2E1F0]

/-- The left-branch additive constants `KL[0..4]` (R133). -/
def tableKL : List Word := [0x00000000, 0x5A827999, 0x6ED9EBA1, 0x8F1BBCDC, 0xA953FD4E]

/-- The right-branch additive constants `KR[0..4]` (R134). -/
def tableKR : List Word := [0x50A28BE6, 0x5C4DD124, 0x6D703EF3, 0x7A6D76E9, 0x00000000]

/-- The left-branch block-word indices `RL[0..79]` (R135, table T-42.2). -/
def tableRL : List Nat :=
  [0, 1, 2, 3, 4, 5, 6, 7, 8, 9, 10, 11, 12, 13, 14, 15]
  ++ [7, 4, 13, 1, 10, 6, 15, 3, 12, 0, 9, 5, 2, 14, 11, 8]
  ++ [3, 10, 14, 4, 9, 15, 8, 1, 2, 7, 0, 6, 13, 11, 5, 12]
  ++ [1, 9, 11, 10, 0, 8, 12, 4, 13, 3, 7, 15, 14, 5, 6, 2]
  ++ [4, 0, 5, 9, 7, 12, 2, 10, 14, 1, 3, 8, 11, 6, 15, 13]

/-- The right-branch block-word indices `RR[0..79]` (R136, table T-42.3). -/
def tableRR : List Nat :=
  [5, 14, 7, 0, 9, 2, 11, 4, 13, 6, 15, 8, 1, 10, 3, 12]
  ++ [6, 11, 3, 7, 0, 13, 5, 10, 14, 15, 8, 12, 4, 9, 1, 2]
  ++ [15, 5, 1, 3, 7, 14, 6, 9, 11, 8, 12, 2, 10, 0, 4, 13]
  ++ [8, 6, 4, 1, 3, 11, 15, 0, 5, 12, 2, 13, 9, 7, 10, 14]
  ++ [12, 15, 10, 4, 1, 5, 8, 7, 6, 2, 13, 14, 0, 3, 9, 11]

/-- The left-branch rotate amounts `SL[0..79]` (R137, table T-42.4). -/
def tableSL : List Nat :=
  [11, 14, 15, 12, 5, 8, 7, 9, 11, 13, 14, 15, 6, 7, 9, 8]
  ++ [7, 6, 8, 13, 11, 9, 7, 15, 7, 12, 15, 9, 11, 7, 13, 12]
  ++ [11, 13, 6, 7, 14, 9, 13, 15, 14, 8, 13, 6, 5, 12, 7, 5]
  ++ [11, 12, 14, 15, 14, 15, 9, 8, 9, 14, 5, 6, 8, 6, 5, 12]
  ++ [9, 15, 5, 11, 6, 8, 13, 12, 5, 12, 13, 14, 11, 8, 5, 6]

/-- The right-branch rotate amounts `SR[0..79]` (R138, table T-42.5). -/
def tableSR : List Nat :=
  [8, 9, 9, 11, 13, 15, 15, 5, 7, 7, 8, 11, 14, 14, 12, 6]
  ++ [9, 13, 15, 7, 12, 8, 9, 11, 7, 7, 12, 7, 6, 15, 13, 11]
  ++ [9, 7, 15, 11, 8, 6, 6, 14, 12, 13, 5, 14, 13, 13, 7, 5]
  ++ [15, 5, 8, 11, 14, 14, 6, 14, 6, 9, 12, 9, 12, 5, 15, 8]
  ++ [8, 5, 12, 9, 12, 5, 14, 6, 8, 13, 6, 5, 15, 13, 11, 11]

/-- The base function of a group 0..4 counted in the order F1 to F5. -/
def groupFn : Nat → BaseFn
  | 0 => .f1
  | 1 => .f2
  | 2 => .f3
  | 3 => .f4
  | _ => .f5

/-- The schedule entry of round `j` of a branch (42_round_engine.md R131): left
`(g+1, KL[g], RL[j], SL[j])`, right `(5-g, KR[g], RR[j], SR[j])`, `g = floor(j / 16)`. -/
def scheduleEntry (b : Branch) (j : Nat) : Entry :=
  match b with
  | .left => ⟨groupFn (j / 16), tableKL.getD (j / 16) 0, BitVec.ofNat 4 (tableRL.getD j 0),
      BitVec.ofNat 5 (tableSL.getD j 0)⟩
  | .right => ⟨groupFn (4 - j / 16), tableKR.getD (j / 16) 0, BitVec.ofNat 4 (tableRR.getD j 0),
      BitVec.ofNat 5 (tableSR.getD j 0)⟩

/-- The 48-bit word of a schedule entry. -/
def entryWord (e : Entry) : BitVec 48 := encodeEntry e.fn e.k e.idx e.rot

/-- The contents of the schedule ROM (42_round_engine.md R139): left branch at 0..79, right
branch at 80..159 (30_encoding.md R73). -/
def romTable : List (BitVec 48) :=
  (List.range 80).map (fun j => entryWord (scheduleEntry .left j))
    ++ (List.range 80).map (fun j => entryWord (scheduleEntry .right j))

end Sys2Proof.Machine
end

