-- ==== Sys2Proof/Machine/State.lean ====
section
/-! DEFINITION. The state (10_state.md), plain data. The fields `lanes` to `OUT` are the spec's;
`turns`, `draws`, `reply` and `port` are the MODEL'S OWN (INVENTORY.md, State). -/

namespace Sys2Proof.Machine

/-- A buffer memory: the words that have been written, as (word address, word) pairs with strictly
rising addresses. The spaces `IN` and `OUT` are word-addressed and not byte-addressable
(20_memory.md R50), so a cell is a word (log 9). An address that is not listed has not been written
since hardware reset and reads as an unspecified value (10_state.md R35, log 3). -/
abbrev Memory := List (Nat × Word)

/-- The phase register's values (10_state.md R25). -/
inductive Phase where
  | idle
  | initialized
  | round
  | finalized
  deriving DecidableEq, Repr

/-- A quintuple of lane vectors `(a, b, c, d, e)` (00_scope.md R10). The state vector `S[0..4]`,
"conventionally named A–E" (10_state.md R21), has the same shape: `S[0]` is `a`, `S[4]` is `e`. -/
structure Quint where
  a : LaneVec
  b : LaneVec
  c : LaneVec
  d : LaneVec
  e : LaneVec
  deriving DecidableEq, Repr

/-- What a host read returned (10_state.md table T-10.2): the code of `PH`, or a word of `OUT`. -/
inductive Reply where
  | none
  | status (code : BitVec 2)
  | word (w : Word)
  deriving DecidableEq, Repr

/-- MODEL'S OWN (log 7): where a format-P or format-F instruction that is run on its own finds its
operands and leaves its result. Their codes carry no operands (30_encoding.md R74), and inside
START, ROUND and FINAL the operands are fixed wiring (10_state.md R38), which does not pass here.
`k`: the constant of BROADCAST; `inIdx`, `outIdx`: the index of LOAD_ROWS and of STORE_ROWS;
`n`: the rotate amount of ROTL; `x`, `y`, `z`: lane-vector operands, `b`, `c`, `d` of a base function. -/
structure Port where
  k      : Word
  inIdx  : Fin 16
  outIdx : Fin 5
  n      : BitVec 5
  x      : LaneVec
  y      : LaneVec
  z      : LaneVec
  result : LaneVec
  deriving DecidableEq, Repr

/-- The state of one instance.
`lanes`: the constant `LANES` (00_scope.md R6). `ROM`, `IVROM`: constants (10_state.md R32, R33).
`PH`, `JL`, `JR`: phase and round counters (R25, R26). `S`: state vector (R21). `L`, `R`: the branch
quintuples (R22, R23). `X`: the sixteen message registers (R24). `IN`, `OUT`: the buffers (R30, R31).
`turns`: which agent moves next (log 5). `draws`: how many unspecified values have been read
(log 3). `reply`: what the last host read returned (log 11). `port`: log 7. -/
structure State where
  lanes : LaneWidth
  ROM   : List (BitVec 48)
  IVROM : List Word
  PH    : Phase
  JL    : Nat
  JR    : Nat
  S     : Quint
  L     : Quint
  R     : Quint
  X     : List LaneVec
  IN    : Memory
  OUT   : Memory
  turns : List Turn
  draws : Nat
  reply : Reply
  port  : Port
  deriving DecidableEq, Repr

/-- The reasons a step can fault: none. "The set of synchronous exceptions is empty"
(60_exceptions.md R160), so this type has no constructor. -/
inductive Fault where
  deriving DecidableEq, Repr

/-- The reasons a run is outside the specification. -/
inductive Refusal where
  /-- Raised by an arm of `exec` that has no meaning yet. Safe: the run ends there. -/
  | notModelled (mnemonic : String)
  /-- Raised by `HostStart` while a call is in progress (70_reset_and_hazards.md R183). Safe. -/
  | hostStartInCall
  /-- Raised by `HostWriteIN` while a call is in progress (70_reset_and_hazards.md R184). Safe. -/
  | hostWriteInCall
  /-- Raised by `HostReadOUT` outside `FINALIZED` (70_reset_and_hazards.md R185). Safe. -/
  | hostReadOutNotFinalized
  /-- Raised by a host action with a lane or an index outside table T-10.2 (10_state.md R36). Safe. -/
  | hostIndexOutOfRange
  /-- Raised by the fetch of a reserved encoding, which no instance of the block holds
  (30_encoding.md R77). That it carries the decoder's reason is the model's choice (log 22). Safe. -/
  | invalidEncoding (e : DecodeError)
  /-- Raised by the fetch of a ROM address the ROM does not have (30_encoding.md R73, R77). Safe. -/
  | noRomEntry (a : Nat)
  /-- Raised by a ROUND micro-instruction in a state where no ROUND step is enabled
  (42_round_engine.md R127, R128). Safe. -/
  | roundNotEnabled
  deriving DecidableEq, Repr

/-- A lane vector of zeros. -/
def zeroVec (n : Nat) : LaneVec := List.replicate n 0

/-- A quintuple of zeros. -/
def zeroQuint (n : Nat) : Quint := ⟨zeroVec n, zeroVec n, zeroVec n, zeroVec n, zeroVec n⟩

/-- The instance of width `w` with the schedule ROM `rom`, right after hardware reset
(10_state.md table T-10.1): `PH = IDLE`, the ROMs at their contents. The registers the spec leaves
unspecified are zero (DESIGN CHOICE, unsafe, log 2); `IN` and `OUT` list nothing (log 3). -/
def State.resetOf (w : LaneWidth) (rom : List (BitVec 48)) : State where
  lanes := w
  ROM   := rom
  IVROM := ivTable
  PH    := .idle
  JL    := 0
  JR    := 0
  S     := zeroQuint w.count
  L     := zeroQuint w.count
  R     := zeroQuint w.count
  X     := List.replicate 16 (zeroVec w.count)
  IN    := []
  OUT   := []
  turns := []
  draws := 0
  reply := .none
  port  := ⟨0, 0, 0, 0, zeroVec w.count, zeroVec w.count, zeroVec w.count, zeroVec w.count⟩

/-- The machine right after reset: the LANES = 1 instance, which "must always be available as the
universal fallback" (00_scope.md R6; DESIGN CHOICE, log 1), with the schedule ROM of R139. -/
def State.reset : State := State.resetOf .one romTable

end Sys2Proof.Machine
end

