-- ==== Sys2Proof/Machine/Ops.lean ====
section
/-! DEFINITION. The named operations over words, lane vectors, memories and registers
(00_scope.md R11, 40_lane_vector.md, 20_memory.md). There is no taking of an exception and no
return from one: the set of exceptions is empty, no state is saved, no mode changes and no handler
address exists (60_exceptions.md R160, R165). -/

namespace Sys2Proof.Machine

/-! ### Word functions (00_scope.md R11) -/

/-- `add32(x, y) = (x + y) mod 2^32`. -/
def add32 (x y : Word) : Word := x + y

/-- `rotl32(x, n)`: bit `m` of `x` becomes bit `(m + n) mod 32` (40_lane_vector.md R99). -/
def rotl32 (x : Word) (n : BitVec 5) : Word := (x <<< n.toNat) ||| (x >>> (32 - n.toNat))

/-- Byte `k` of a word, `w[8k+7:8k]` (00_scope.md R9). -/
def byteOf (w : Word) (k : Nat) : Byte := w.extractLsb' (8 * k) 8

/-- `bswap32(x) = x[7:0] ‖ x[15:8] ‖ x[23:16] ‖ x[31:24]`. -/
def bswap32 (x : Word) : Word := byteOf x 0 ++ byteOf x 1 ++ byteOf x 2 ++ byteOf x 3

/-- `not32(x)`: every one of the 32 bits complemented. -/
def not32 (x : Word) : Word := ~~~x

/-! ### Lane vectors (00_scope.md R10, 40_lane_vector.md R90) -/

/-- Lane `i` of a lane vector. -/
def lane (v : LaneVec) (i : Nat) : Word := v.getD i 0

/-- `for i in 0 .. n-1: result[i] <- g(i)`. -/
def perLane (n : Nat) (g : Nat → Word) : LaneVec := (List.range n).map g

/-- The value of a lane vector held in a physical `32*n`-bit register: lane `i` occupies bits
`32i+31:32i` (00_scope.md R10). No operation of the model uses this placement. -/
def packedLanes (v : LaneVec) : Nat → Nat
  | 0 => 0
  | n + 1 => packedLanes v n + (lane v n).toNat * 2 ^ (32 * n)

/-- A lane-wise operation of one operand. -/
def lanewise1 (n : Nat) (g : Word → Word) (x : LaneVec) : LaneVec :=
  perLane n fun i => g (lane x i)

/-- A lane-wise operation of two operands. -/
def lanewise2 (n : Nat) (g : Word → Word → Word) (x y : LaneVec) : LaneVec :=
  perLane n fun i => g (lane x i) (lane y i)

/-! ### Memories (20_memory.md R50 to R54) -/

/-- The word written at an address, if one has been since hardware reset. -/
def Memory.word? : Memory → Nat → Option Word
  | [], _ => none
  | (b, w) :: m, a => if a = b then some w else Memory.word? m a

/-- Write one word, whole (20_memory.md R52). Addresses stay strictly rising. -/
def Memory.put : Memory → Nat → Word → Memory
  | [], a, v => [(a, v)]
  | (b, w) :: m, a, v =>
    if a < b then (a, v) :: (b, w) :: m
    else if a = b then (a, v) :: m
    else (b, w) :: Memory.put m a v

/-- Every listed address is above `lo`, and they rise strictly. -/
def Memory.risesFrom : Nat → Memory → Bool
  | _, [] => true
  | lo, (b, _) :: m => decide (lo ≤ b) && Memory.risesFrom (b + 1) m

/-- The canonical form of a memory: strictly rising addresses. (An unlisted address reads as an
unspecified value, so no listed word equals what it would read as unlisted.) -/
def Memory.wf (m : Memory) : Bool := Memory.risesFrom 0 m

/-- `MemRead(space, a)` as the `d`-th draw: a word nobody has written since hardware reset is
unspecified (10_state.md R35, 93_implementation_defined.md U1, U2). -/
def readWord (m : Memory) (a d : Nat) : Word := (m.word? a).getD (Config.unspecifiedWord d)

/-- The effective word address of lane `i`, index `j` in a buffer of `row` words per row (20_memory.md R51). -/
def effectiveAddress (row i j : Nat) : Nat := row * i + j

/-! ### The ten primitives (40_lane_vector.md R91 to R100), `n` lanes -/

/-- R91 `broadcast`. -/
def broadcast (n : Nat) (c : Word) : LaneVec := perLane n fun _ => c

/-- R92 `load_rows(B, j)`; lane `i`'s read is draw `d + i`. -/
def loadRows (n row : Nat) (m : Memory) (j d : Nat) : LaneVec :=
  perLane n fun i => readWord m (effectiveAddress row i j) (d + i)

/-- R93 `store_rows(v, B, j)`. -/
def storeRows (n row : Nat) (m : Memory) (j : Nat) (v : LaneVec) : Memory :=
  (List.range n).foldl (fun m i => m.put (effectiveAddress row i j) (lane v i)) m

/-- R94 `and`. -/
def andV (n : Nat) (x y : LaneVec) : LaneVec := lanewise2 n (fun p q => p &&& q) x y

/-- R95 `or`. -/
def orV (n : Nat) (x y : LaneVec) : LaneVec := lanewise2 n (fun p q => p ||| q) x y

/-- R96 `xor`. -/
def xorV (n : Nat) (x y : LaneVec) : LaneVec := lanewise2 n (fun p q => p ^^^ q) x y

/-- R97 `not`. -/
def notV (n : Nat) (x : LaneVec) : LaneVec := lanewise1 n not32 x

/-- R98 `add32`. -/
def addV (n : Nat) (x y : LaneVec) : LaneVec := lanewise2 n add32 x y

/-- R99 `rotl`. -/
def rotlV (n : Nat) (x : LaneVec) (r : BitVec 5) : LaneVec := lanewise1 n (fun w => rotl32 w r) x

/-- R100 `byteswap`. -/
def byteswapV (n : Nat) (x : LaneVec) : LaneVec := lanewise1 n bswap32 x

/-! ### Registers: the named reads and updates of State -/

/-- The instance's lane count `LANES`. -/
def State.n (s : State) : Nat := s.lanes.count

/-- The quintuple of a branch. -/
def State.quint (s : State) : Branch → Quint
  | .left => s.L
  | .right => s.R

/-- The round counter of a branch. -/
def State.count (s : State) : Branch → Nat
  | .left => s.JL
  | .right => s.JR

/-- Write the quintuple of a branch. -/
def State.withQuint (s : State) (b : Branch) (q : Quint) : State :=
  match b with
  | .left => { s with L := q }
  | .right => { s with R := q }

/-- Write the round counter of a branch. -/
def State.withCount (s : State) (b : Branch) (j : Nat) : State :=
  match b with
  | .left => { s with JL := j }
  | .right => { s with JR := j }

/-- Write the phase register. -/
def State.withPhase (s : State) (p : Phase) : State := { s with PH := p }

/-- Write the state vector. -/
def State.withS (s : State) (q : Quint) : State := { s with S := q }

/-- Write the input buffer. -/
def State.withIN (s : State) (m : Memory) : State := { s with IN := m }

/-- Write the output buffer. -/
def State.withOUT (s : State) (m : Memory) : State := { s with OUT := m }

/-- Return something to the host. -/
def State.withReply (s : State) (r : Reply) : State := { s with reply := r }

/-- Count `k` more reads of possibly unspecified values. -/
def State.drew (s : State) (k : Nat) : State := { s with draws := s.draws + k }

/-- Leave the result of a primitive or of a base function in the port. -/
def State.withResult (s : State) (v : LaneVec) : State := { s with port := { s.port with result := v } }

/-- The turn at the head is over. -/
def State.endTurn (s : State) : State := { s with turns := s.turns.tail }

/-- Apply `f` to the next state of an outcome; a fault or a refusal stays. -/
def afterNext (f : State → State) : Host.Outcome State Fault Refusal → Host.Outcome State Fault Refusal
  | .next s => .next (f s)
  | .fault r => .fault r
  | .refused r => .refused r

end Sys2Proof.Machine
end

