-- ==== Sys2Proof/Machine/Operands.lean ====
section
/-! DEFINITION. The operand forms: the message register an entry selects (30_encoding.md R72), the
ROM address of a branch's next entry (R73), and which ROUND step the engine takes
(42_round_engine.md R127 to R129, R143). -/

namespace Sys2Proof.Machine

/-- `X[idx]`: the message register an entry's block-word index selects (30_encoding.md R72). -/
def State.message (s : State) (idx : BitVec 4) : LaneVec := s.X.getD idx.toNat []

/-- The branch of a ROM address (30_encoding.md R73): left below 80, right from 80. -/
def branchOf (a : Nat) : Branch := if a < 80 then .left else .right

/-- The ROM address of a branch's next entry: `JL`, or `80 + JR` (30_encoding.md R73). -/
def State.romAddress (s : State) : Branch → Nat
  | .left => s.JL
  | .right => 80 + s.JR

/-- A call is in progress: `PH` is `INITIALIZED` or `ROUND`. -/
def State.inCall (s : State) : Bool :=
  match s.PH with
  | .idle => false
  | .initialized => true
  | .round => true
  | .finalized => false

/-- Whether the ROUND step of a branch is enabled (42_round_engine.md R127, R128). -/
def State.roundEnabled (s : State) (b : Branch) : Bool := s.inCall && decide (s.count b < 80)

/-- The branch an engine turn prefers, if it prefers one (log 5). -/
def State.preference (s : State) : Option Branch :=
  match s.turns with
  | .engine p :: _ => p
  | _ => none

/-- The default issue order: strict alternation starting with the left branch (42_round_engine.md R143). -/
def State.defaultBranch (s : State) : Branch := if s.JL ≤ s.JR then .left else .right

/-- The branch whose ROUND step the engine takes next: the preferred one when it is enabled, else
the other one when that is; none when neither is (42_round_engine.md R129, log 5). -/
def State.nextBranch (s : State) : Option Branch :=
  let b := s.preference.getD s.defaultBranch
  if s.roundEnabled b then some b
  else if s.roundEnabled b.other then some b.other
  else none

end Sys2Proof.Machine
end

