-- ==== Sys2Proof/Machine/LaneVector.lean ====
section
/-! DEFINITION. The meanings of the ten format-P instructions run on their own: operands from
`port`, result to `port.result` (40_lane_vector.md R91 to R100, log 7). Each is total; none reads or
writes a register that is not its operand (R102). -/

namespace Sys2Proof.Machine

/-- The outcome of a primitive or base function whose result is `v`. -/
def resultIs (v : LaneVec) (s : State) : Host.Outcome State Fault Refusal := .next (s.withResult v)

/-- BROADCAST (R91). -/
def execBroadcast (s : State) : Host.Outcome State Fault Refusal :=
  resultIs (broadcast s.n s.port.k) s

/-- LOAD_ROWS (R92) on `IN`, sixteen words per row. -/
def execLoadRows (s : State) : Host.Outcome State Fault Refusal :=
  resultIs (loadRows s.n 16 s.IN s.port.inIdx.val s.draws) (s.drew s.n)

/-- STORE_ROWS (R93) on `OUT`, five words per row. -/
def execStoreRows (s : State) : Host.Outcome State Fault Refusal :=
  .next (s.withOUT (storeRows s.n 5 s.OUT s.port.outIdx.val s.port.x))

/-- AND (R94). -/
def execAnd (s : State) : Host.Outcome State Fault Refusal :=
  resultIs (andV s.n s.port.x s.port.y) s

/-- OR (R95). -/
def execOr (s : State) : Host.Outcome State Fault Refusal :=
  resultIs (orV s.n s.port.x s.port.y) s

/-- XOR (R96). -/
def execXor (s : State) : Host.Outcome State Fault Refusal :=
  resultIs (xorV s.n s.port.x s.port.y) s

/-- NOT (R97). -/
def execNot (s : State) : Host.Outcome State Fault Refusal :=
  resultIs (notV s.n s.port.x) s

/-- ADD32 (R98). -/
def execAdd32 (s : State) : Host.Outcome State Fault Refusal :=
  resultIs (addV s.n s.port.x s.port.y) s

/-- ROTL (R99). -/
def execRotl (s : State) : Host.Outcome State Fault Refusal :=
  resultIs (rotlV s.n s.port.x s.port.n) s

/-- BYTESWAP (R100). -/
def execByteswap (s : State) : Host.Outcome State Fault Refusal :=
  resultIs (byteswapV s.n s.port.x) s

end Sys2Proof.Machine
end

