-- ==== Sys2Proof/Machine/BaseFunctions.lean ====
section
/-! DEFINITION. The five base functions (41_base_functions_round.md R110 to R115), built from the
primitives, and the meanings of the format-F instructions run on their own (log 7). -/

namespace Sys2Proof.Machine

/-- R110: b ⊕ c ⊕ d. -/
def fnF1 (n : Nat) (b c d : LaneVec) : LaneVec := xorV n (xorV n b c) d

/-- R111: (b ∧ c) ∨ (¬b ∧ d). -/
def fnF2 (n : Nat) (b c d : LaneVec) : LaneVec := orV n (andV n b c) (andV n (notV n b) d)

/-- R112: (b ∨ ¬c) ⊕ d. -/
def fnF3 (n : Nat) (b c d : LaneVec) : LaneVec := xorV n (orV n b (notV n c)) d

/-- R113: (b ∧ d) ∨ (c ∧ ¬d). -/
def fnF4 (n : Nat) (b c d : LaneVec) : LaneVec := orV n (andV n b d) (andV n c (notV n d))

/-- R114: b ⊕ (c ∨ ¬d). -/
def fnF5 (n : Nat) (b c d : LaneVec) : LaneVec := xorV n b (orV n c (notV n d))

/-- R115 `F(fn, b, c, d)`. -/
def selectFn (n : Nat) (fn : BaseFn) (b c d : LaneVec) : LaneVec :=
  match fn with
  | .f1 => fnF1 n b c d
  | .f2 => fnF2 n b c d
  | .f3 => fnF3 n b c d
  | .f4 => fnF4 n b c d
  | .f5 => fnF5 n b c d

/-- F1 (R110). -/
def execF1 (s : State) : Host.Outcome State Fault Refusal :=
  resultIs (fnF1 s.n s.port.x s.port.y s.port.z) s

/-- F2 (R111). -/
def execF2 (s : State) : Host.Outcome State Fault Refusal :=
  resultIs (fnF2 s.n s.port.x s.port.y s.port.z) s

/-- F3 (R112). -/
def execF3 (s : State) : Host.Outcome State Fault Refusal :=
  resultIs (fnF3 s.n s.port.x s.port.y s.port.z) s

/-- F4 (R113). -/
def execF4 (s : State) : Host.Outcome State Fault Refusal :=
  resultIs (fnF4 s.n s.port.x s.port.y s.port.z) s

/-- F5 (R114). -/
def execF5 (s : State) : Host.Outcome State Fault Refusal :=
  resultIs (fnF5 s.n s.port.x s.port.y s.port.z) s

end Sys2Proof.Machine
end

