-- ==== Sys2Proof/Machine/RoundEngine.lean ====
section
/-! DEFINITION. The round primitive (41_base_functions_round.md R116, R117), the ROUND steps
(42_round_engine.md R127, R128) and START (R126). -/

namespace Sys2Proof.Machine

/-- R116: the round primitive on a quintuple, with the corrected register rotation
`(a, b, c, d, e) <- (e, a', b, c', d)` of R117 (90_conflicts.md C1). -/
def roundPrimitive (n : Nat) (fn : BaseFn) (k : Word) (x : LaneVec) (rot : BitVec 5) (q : Quint) : Quint :=
  let f := selectFn n fn q.b q.c q.d
  let t := addV n (addV n (addV n q.a f) x) (broadcast n k)
  let a' := addV n (rotlV n t rot) q.e
  let c' := rotlV n q.c 10
  ⟨q.e, a', q.b, c', q.d⟩

/-- The ROUND step of a branch with a decoded entry: R127 for the left branch, R128 for the right
one. The branches differ only in the quintuple and the counter (41_base_functions_round.md R118). -/
def roundOn (b : Branch) (fn : BaseFn) (k : Word) (idx : BitVec 4) (rot : BitVec 5) (s : State) : State :=
  ((s.withQuint b (roundPrimitive s.n fn k (s.message idx) rot (s.quint b))).withCount b
    (s.count b + 1)).withPhase .round

/-- A ROUND micro-instruction: the ROUND step of the branch the engine takes next. Where no ROUND
step is enabled the spec has no such step (R127, R128) and the run is refused (log 13). -/
def roundStep (fn : BaseFn) (k : Word) (idx : BitVec 4) (rot : BitVec 5) (s : State) :
    Host.Outcome State Fault Refusal :=
  match s.nextBranch with
  | some b => .next (roundOn b fn k idx rot s)
  | none => .refused .roundNotEnabled

/-- ROUND.F1 (R119). -/
def execRoundF1 (k : Word) (idx : BitVec 4) (rot : BitVec 5) (s : State) : Host.Outcome State Fault Refusal :=
  roundStep .f1 k idx rot s

/-- ROUND.F2 (R119). -/
def execRoundF2 (k : Word) (idx : BitVec 4) (rot : BitVec 5) (s : State) : Host.Outcome State Fault Refusal :=
  roundStep .f2 k idx rot s

/-- ROUND.F3 (R119). -/
def execRoundF3 (k : Word) (idx : BitVec 4) (rot : BitVec 5) (s : State) : Host.Outcome State Fault Refusal :=
  roundStep .f3 k idx rot s

/-- ROUND.F4 (R119). -/
def execRoundF4 (k : Word) (idx : BitVec 4) (rot : BitVec 5) (s : State) : Host.Outcome State Fault Refusal :=
  roundStep .f4 k idx rot s

/-- ROUND.F5 (R119). -/
def execRoundF5 (k : Word) (idx : BitVec 4) (rot : BitVec 5) (s : State) : Host.Outcome State Fault Refusal :=
  roundStep .f5 k idx rot s

/-- `MemRead(IVROM, j)` (10_state.md R33). -/
def ivWord (s : State) (j : Nat) : Word := s.IVROM.getD j 0

/-- The state vector START writes: `S[j] <- broadcast(MemRead(IVROM, j))` (R126). -/
def ivQuint (s : State) : Quint :=
  ⟨broadcast s.n (ivWord s 0), broadcast s.n (ivWord s 1), broadcast s.n (ivWord s 2),
    broadcast s.n (ivWord s 3), broadcast s.n (ivWord s 4)⟩

/-- The message registers START writes: `X[j] <- load_rows(IN, j)`, `j = 0..15` (R126). The read of
lane `i` of `X[j]` is draw `draws + LANES * j + i` (log 3). -/
def gatherMessage (s : State) : List LaneVec :=
  (List.range 16).map fun j => loadRows s.n 16 s.IN j (s.draws + s.n * j)

/-- START, the INIT step, one atomic step (42_round_engine.md R126). -/
def start (s : State) : State :=
  { s with
    S := ivQuint s
    L := ivQuint s
    R := ivQuint s
    X := gatherMessage s
    JL := 0
    JR := 0
    PH := .initialized
    draws := s.draws + s.n * 16 }

end Sys2Proof.Machine
end

