-- ==== Sys2Proof/Machine/Finalizer.lean ====
section
/-! DEFINITION. The FINAL step (43_block_finalizer.md R150 to R154). -/

namespace Sys2Proof.Machine

/-- R151: the combination of the two branches with the pre-round state. All five sums use the
values before the step, so `S[0]` in the last one is the old one (R152, R187). -/
def combine (n : Nat) (S L R : Quint) : Quint where
  a := addV n (addV n S.b L.c) R.d
  b := addV n (addV n S.c L.d) R.e
  c := addV n (addV n S.d L.e) R.a
  d := addV n (addV n S.e L.a) R.b
  e := addV n (addV n S.a L.b) R.c

/-- R153: `for j in 0 .. 4: store_rows(byteswap(S[j]), OUT, j)`. -/
def storeDigest (n : Nat) (S : Quint) (m : Memory) : Memory :=
  let m0 := storeRows n 5 m 0 (byteswapV n S.a)
  let m1 := storeRows n 5 m0 1 (byteswapV n S.b)
  let m2 := storeRows n 5 m1 2 (byteswapV n S.c)
  let m3 := storeRows n 5 m2 3 (byteswapV n S.d)
  storeRows n 5 m3 4 (byteswapV n S.e)

/-- Whether FINAL is enabled (R150): `PH = ROUND`, `JL = 80` and `JR = 80`. -/
def State.finalEnabled (s : State) : Bool :=
  decide (s.PH = .round) && decide (s.JL = 80) && decide (s.JR = 80)

/-- FINAL, one atomic step (R150): R151, R153, then `PH <- FINALIZED` (R154). `S` ends up with the
un-swapped words (10_state.md table T-10.1, log 16). -/
def final (s : State) : State :=
  let S' := combine s.n s.S s.L s.R
  ((s.withS S').withOUT (storeDigest s.n S' s.OUT)).withPhase .finalized

end Sys2Proof.Machine
end

