-- ==== Sys2Proof/Machine/Dispatch.lean ====
section
/-! DEFINITION. The meaning of each instruction: one arm per constructor of Instr. -/

namespace Sys2Proof.Machine

/-- Execute an instruction in a state. -/
def exec (i : Instr) (s : State) : Host.Outcome State Fault Refusal :=
  match i with
  -- format P (40_lane_vector.md)
  | .broadcast => Sys2Proof.Machine.execBroadcast s
  | .loadRows => Sys2Proof.Machine.execLoadRows s
  | .storeRows => Sys2Proof.Machine.execStoreRows s
  | .and => Sys2Proof.Machine.execAnd s
  | .or => Sys2Proof.Machine.execOr s
  | .xor => Sys2Proof.Machine.execXor s
  | .not => Sys2Proof.Machine.execNot s
  | .add32 => Sys2Proof.Machine.execAdd32 s
  | .rotl => Sys2Proof.Machine.execRotl s
  | .byteswap => Sys2Proof.Machine.execByteswap s
  -- format F (41_base_functions_round.md section 1)
  | .f1 => Sys2Proof.Machine.execF1 s
  | .f2 => Sys2Proof.Machine.execF2 s
  | .f3 => Sys2Proof.Machine.execF3 s
  | .f4 => Sys2Proof.Machine.execF4 s
  | .f5 => Sys2Proof.Machine.execF5 s
  -- format S (41_base_functions_round.md section 2)
  | .roundF1 k idx rot => Sys2Proof.Machine.execRoundF1 k idx rot s
  | .roundF2 k idx rot => Sys2Proof.Machine.execRoundF2 k idx rot s
  | .roundF3 k idx rot => Sys2Proof.Machine.execRoundF3 k idx rot s
  | .roundF4 k idx rot => Sys2Proof.Machine.execRoundF4 k idx rot s
  | .roundF5 k idx rot => Sys2Proof.Machine.execRoundF5 k idx rot s

end Sys2Proof.Machine
end

