-- ==== Sys2Proof/Machine/Flags.lean ====
section
/-! DEFINITION. There are no flags, condition codes or predicates (10_state.md R28). The block's
one status value and its one output signal are computed from `PH` (R29). -/

namespace Sys2Proof.Machine

/-- The 2-bit code of a phase (10_state.md R25). -/
def Phase.code : Phase → BitVec 2
  | .idle => 0b00
  | .initialized => 0b01
  | .round => 0b10
  | .finalized => 0b11

/-- `STATUS`: the 2-bit code of `PH` (10_state.md R29). -/
def statusCode (s : State) : BitVec 2 := s.PH.code

/-- `done`: 1 exactly when `PH = FINALIZED` (10_state.md R29, 60_exceptions.md R163). -/
def done (s : State) : Bool :=
  match s.PH with
  | .idle => false
  | .initialized => false
  | .round => false
  | .finalized => true

end Sys2Proof.Machine
end

