-- ==== Sys2Proof/Machine/Host.lean ====
section
/-! DEFINITION. What reaches the block from outside: the four host actions (10_state.md table
T-10.2, 70_reset_and_hazards.md R183 to R185), hardware reset (R180), the host scripts POLL and CALL
(30_encoding.md R80) and the host-side conventions of the byte strings (20_memory.md R58, R59,
70_reset_and_hazards.md R182). -/

namespace Sys2Proof.Machine

/-- `HostWriteIN(i, j, w)`: legal in `IDLE` and `FINALIZED` (R184). -/
def hostWriteIn (i j : Nat) (w : Word) (s : State) : Host.Outcome State Fault Refusal :=
  if s.inCall then .refused .hostWriteInCall
  else if HostAction.wf s.n (.writeIn i j w) then
    .next (s.withIN (s.IN.put (effectiveAddress 16 i j) w))
  else .refused .hostIndexOutOfRange

/-- `HostStart`: legal in `IDLE` and `FINALIZED` (R183). -/
def hostStart (s : State) : Host.Outcome State Fault Refusal :=
  if s.inCall then .refused .hostStartInCall else .next (start s)

/-- `HostReadStatus`: always legal; returns the code of `PH` (10_state.md R29, R36). -/
def hostReadStatus (s : State) : Host.Outcome State Fault Refusal :=
  .next (s.withReply (.status (statusCode s)))

/-- `HostReadOUT(i, j)`: legal in `FINALIZED` (R185); returns `MemRead(OUT, 5*i + j)`. -/
def hostReadOut (i j : Nat) (s : State) : Host.Outcome State Fault Refusal :=
  if s.PH = .finalized then
    if HostAction.wf s.n (.readOut i j) then
      .next ((s.withReply (.word (readWord s.OUT (effectiveAddress 5 i j) s.draws))).drew 1)
    else .refused .hostIndexOutOfRange
  else .refused .hostReadOutNotFinalized

/-- A host action, one atomic step of the host agent (10_state.md R36). -/
def hostStep (a : HostAction) (s : State) : Host.Outcome State Fault Refusal :=
  match a with
  | .writeIn i j w => hostWriteIn i j w s
  | .start => hostStart s
  | .readStatus => hostReadStatus s
  | .readOut i j => hostReadOut i j s

/-- A lane vector of unspecified words, the draws from `d` on. -/
def unspecifiedVec (n d : Nat) : LaneVec := perLane n fun i => Config.unspecifiedWord (d + i)

/-- A quintuple of unspecified words, the draws from `d` on. -/
def unspecifiedQuint (n d : Nat) : Quint :=
  ⟨unspecifiedVec n d, unspecifiedVec n (d + n), unspecifiedVec n (d + 2 * n),
    unspecifiedVec n (d + 3 * n), unspecifiedVec n (d + 4 * n)⟩

/-- Hardware reset (70_reset_and_hazards.md R180): `PH <- IDLE`; every other piece of mutable state
is unspecified: the registers hold free values, and `IN` and `OUT` hold nothing that has been
written (log 4). The constants stay. -/
def hardwareReset (s : State) : State :=
  { s with
    PH := .idle
    JL := (Config.unspecifiedCount s.draws).val
    JR := (Config.unspecifiedCount (s.draws + 1)).val
    S := unspecifiedQuint s.n s.draws
    L := unspecifiedQuint s.n (s.draws + 5 * s.n)
    R := unspecifiedQuint s.n (s.draws + 10 * s.n)
    X := (List.range 16).map fun j => unspecifiedVec s.n (s.draws + (15 + j) * s.n)
    IN := []
    OUT := []
    draws := s.draws + 31 * s.n + 2 }

/-! ### Host scripts (30_encoding.md R79, R80) -/

/-- `POLL`: "repeat `STATUS` until it returns `FINALIZED`". The script in which the read of STATUS
returns something else `misses` times, with one engine turn after each such read (log 19). -/
def pollTurns : Nat → List Turn
  | 0 => [.host .readStatus]
  | misses + 1 => .host .readStatus :: .engine none :: pollTurns misses

/-- `CALL`: `START`, then `POLL`. The engine has 161 steps in a call (42_round_engine.md R142), so
161 reads of STATUS return something else (log 19). -/
def callTurns : List Turn := .host .start :: pollTurns 161

/-! ### Byte strings on the host's side -/

/-- 20_memory.md R58: four message bytes, the first one least significant. -/
def packWord (m0 m1 m2 m3 : Byte) : Word := m3 ++ m2 ++ m1 ++ m0

/-- 20_memory.md R58: the input words of a byte string, four bytes a word. -/
def packBytes : List Byte → List Word
  | m0 :: m1 :: m2 :: m3 :: rest => packWord m0 m1 m2 m3 :: packBytes rest
  | _ => []

/-- 20_memory.md R59: the four digest bytes of an output word, most significant first. -/
def outWordBytes (w : Word) : List Byte := [byteOf w 3, byteOf w 2, byteOf w 1, byteOf w 0]

/-- 20_memory.md R59: the digest bytes of a lane's output words, index 0 first. -/
def digestBytes (ws : List Word) : List Byte := ws.flatMap outWordBytes

/-- 70_reset_and_hazards.md R182 (3): the framed 64-byte block of a message of at most 55 bytes,
which is the HOST's duty: the message, `0x80`, zeros, and the bit length as 8 little-endian bytes. -/
def frameMessage (m : List Byte) : Option (List Byte) :=
  if m.length ≤ 55 then
    some (m ++ [0x80] ++ List.replicate (55 - m.length) 0
      ++ (List.range 8).map fun k => BitVec.ofNat 8 (8 * m.length / 2 ^ (8 * k)))
  else none

/-- The host writes of one lane's row (70_reset_and_hazards.md R182 (2)). -/
def writeRowTurns (i : Nat) (ws : List Word) : List Turn :=
  ((List.range 16).zip ws).map fun p => .host (.writeIn i p.1 p.2)

/-- The host reads of one lane's digest (70_reset_and_hazards.md R182 (4)). -/
def readRowTurns (i : Nat) : List Turn :=
  (List.range 5).map fun j => .host (.readOut i j)

end Sys2Proof.Machine
end

