-- ==== Sys2Proof/Machine/Fetch.lean ====
section
/-! DEFINITION. What moves next: the agent whose turn it is, and for the engine the step that is
enabled (42_round_engine.md R125, table T-42.1). -/

namespace Sys2Proof.Machine

/-- What the machine does next. `run c`: the instruction with code `c`. `noEntry a`: the ROM has no
entry at the address to be fetched. `idle`: the engine has no enabled step. -/
inductive Action where
  | run (c : Code)
  | noEntry (a : Nat)
  | final
  | host (a : HostAction)
  | reset
  | idle
  deriving DecidableEq, Repr

/-- The fetch of `ROM[a]`, whole, by entry address (30_encoding.md R73, 20_memory.md R57, R63). -/
def fetchEntry (s : State) (a : Nat) : Action :=
  match s.ROM[a]? with
  | some w => .run (.s w)
  | none => .noEntry a

/-- The engine's next step (table T-42.1): a ROUND step when one is enabled, else FINAL when it is
enabled, else none. -/
def engineAction (s : State) : Action :=
  match s.nextBranch with
  | some b => fetchEntry s (s.romAddress b)
  | none => if s.finalEnabled then .final else .idle

/-- The agent at the head of `turns` moves; with no turn left the engine does (log 5). -/
def nextAction (s : State) : Action :=
  match s.turns with
  | .reset :: _ => .reset
  | .host a :: _ => .host a
  | .lvop w :: _ => .run (.p w)
  | .fn w :: _ => .run (.f w)
  | .engine _ :: _ => engineAction s
  | [] => engineAction s

/-- The state in which the very next step runs the code `c`: a format-S code stands in the ROM
where the engine fetches its next left entry, with a call in progress and the engine's turn at the
head; a format-P or format-F code is the turn at the head (log 10). -/
def placeCode (s : State) : Code → State
  | .s w =>
    let j := if s.JL < 80 then s.JL else 0
    { s with
      ROM := s.ROM.set j w
      JL := j
      PH := if s.inCall then s.PH else if j = 0 ∧ s.JR = 0 then .initialized else .round
      turns := .engine (some .left) :: s.turns }
  | .p w => { s with turns := .lvop w :: s.turns }
  | .f w => { s with turns := .fn w :: s.turns }

end Sys2Proof.Machine
end

