-- ==== Sys2Proof/Machine/Act.lean ====
section
/-! DEFINITION. What each action does (42_round_engine.md table T-42.1, 10_state.md table T-10.2). -/

namespace Sys2Proof.Machine

/-- What an action does to a state. The engine with no enabled step waits: nothing changes
(60_exceptions.md R169, log 6). A reserved code is refused with the decoder's reason (logs 13, 22). -/
def act (a : Action) (s : State) : Host.Outcome State Fault Refusal :=
  match a with
  | .run c => match decode c with
    | .ok i => exec i s
    | .error e => .refused (.invalidEncoding e)
  | .noEntry a => .refused (.noRomEntry a)
  | .final => .next (final s)
  | .host h => hostStep h s
  | .reset => .next (hardwareReset s)
  | .idle => .next s

end Sys2Proof.Machine
end

