-- ==== Sys2Proof/Machine/Step.lean ====
section
/-! DEFINITION. One step of the block (42_round_engine.md table T-42.1, 10_state.md table T-10.2). -/

namespace Sys2Proof.Machine

/-- One step: the agent whose turn it is acts, and its turn is over. -/
def step (s : State) : Host.Outcome State Fault Refusal :=
  afterNext State.endTurn (act (nextAction s) s)

/-- The state in which the very next step runs the instruction whose opcode-table bits are `w`
(log 10). Bits that are no code of the table's formats are placed as a reserved code. -/
def State.withFetchWord (s : State) (nbits w : Nat) : State :=
  placeCode s ((tableCode nbits w).getD (.s 0))

end Sys2Proof.Machine
end

