-- ==== Sys2Proof/Machine/Build.lean ====
section
/-! DEFINITION. Build time: the one error class of the block (60_exceptions.md R161). A lane count
outside 1, 4, 8 (00_scope.md R8) or a schedule ROM that fails the check of 42_round_engine.md R139
is not an instance, and instantiating it is refused. -/

namespace Sys2Proof.Machine

/-- The two build-time configuration failures (60_exceptions.md R161); their names and that they are told
apart are the model's (log 21). -/
inductive BuildError where
  | lanesNotSupported
  | romNotWellFormed
  deriving DecidableEq, Repr

/-- The entry of a ROM word; none where the word is a reserved encoding (30_encoding.md R77). -/
def entryOfWord (w : BitVec 48) : Option Entry :=
  match decodeEntry w with
  | .ok i => i.entry?
  | .error _ => none

/-- The well-formedness check on the ROM (42_round_engine.md R139): every word decodes (`fn` in
1..5, reserved bits 0) and the schedule is well formed. -/
def romWf (rom : List (BitVec 48)) : Bool :=
  match rom.mapM entryOfWord with
  | some es => scheduleWf es
  | none => false

/-- An instance, right after hardware reset, or the reason there is none. DESIGN CHOICE: with a bad lane
count and a bad ROM both, the reason given is the lane count; the spec says only that a model refuses,
and distinguishes no reasons (00_scope.md R8, 60_exceptions.md R161, log 21). -/
def instantiate (lanes : Nat) (rom : List (BitVec 48)) : Except BuildError State :=
  match LaneWidth.ofCount? lanes with
  | none => .error .lanesNotSupported
  | some w => if romWf rom then .ok (State.resetOf w rom) else .error .romNotWellFormed

end Sys2Proof.Machine
end

