-- ==== Sys2Proof/Machine/Instances.lean ====
section
/-! DEFINITION. Several instances: "a model of k instances is the product of k models"
(60_exceptions.md R170). Instances share no state. -/

namespace Sys2Proof.Machine

/-- Instance `k` of a system takes one step; every other instance is untouched. With no instance
`k` nothing moves. DESIGN CHOICE: every instance indexes the same opaque sequences of free values by
its own `draws`, so that two instances with equal `draws` get equal unspecified values, where the spec
calls each any value (log 20). -/
def stepInstance (k : Nat) (sys : List State) : Host.Outcome (List State) Fault Refusal :=
  match sys[k]? with
  | some s => match step s with
    | .next s' => .next (sys.set k s')
    | .fault r => .fault r
    | .refused r => .refused r
  | none => .next sys

end Sys2Proof.Machine
end

