-- ==== Sys2Proof/Safety.lean ====
section
/-! DEFINITION. The terms claims use: the state invariant, what a turn may be in a run of the spec,
and the word-level function a whole call computes (43_block_finalizer.md R155). -/

namespace Sys2Proof.Machine

/-! ### The invariant -/

/-- Every lane vector of a quintuple has `n` lanes. -/
structure Quint.Sized (n : Nat) (q : Quint) : Prop where
  a : q.a.length = n
  b : q.b.length = n
  c : q.c.length = n
  d : q.d.length = n
  e : q.e.length = n

/-- A buffer is in its canonical form and inside its address range (20_memory.md R50). -/
structure Memory.Good (size : Nat) (m : Memory) : Prop where
  wf    : m.wf = true
  inRange : ∀ a w, m.word? a = some w → a < size

/-- What every step keeps: the registers have LANES lanes (10_state.md R21 to R24), the counters are
in 0..80 (R26), the buffers are canonical and in range (20_memory.md R50), and the counters agree
with the phase (R25, table T-10.1): 0 and 0 in `INITIALIZED`, at least one round made in `ROUND`,
80 and 80 in `FINALIZED`, where every word of `OUT` has been written (70_reset_and_hazards.md R190). -/
structure State.Inv (s : State) : Prop where
  svec : s.S.Sized s.n
  left : s.L.Sized s.n
  right : s.R.Sized s.n
  messages : s.X.length = 16
  messageLanes : ∀ v ∈ s.X, v.length = s.n
  leftCount : s.JL ≤ 80
  rightCount : s.JR ≤ 80
  input : s.IN.Good (16 * s.n)
  output : s.OUT.Good (5 * s.n)
  initialized : s.PH = .initialized → s.JL = 0 ∧ s.JR = 0
  round : s.PH = .round → 1 ≤ s.JL + s.JR
  finalized : s.PH = .finalized → s.JL = 80 ∧ s.JR = 80 ∧ ∀ a, a < 5 * s.n → (s.OUT.word? a).isSome = true

/-- The two ROMs hold their fixed contents (10_state.md R32, R33). -/
structure State.Genuine (s : State) : Prop where
  rom : s.ROM = romTable
  ivrom : s.IVROM = ivTable

/-! ### The word-level reference (43_block_finalizer.md R155), one lane -/

/-- Five words `(a, b, c, d, e)`. -/
structure WordQuint where
  a : Word
  b : Word
  c : Word
  d : Word
  e : Word
  deriving DecidableEq, Repr

/-- Word `j` of the five. -/
def WordQuint.get (q : WordQuint) : Nat → Word
  | 0 => q.a
  | 1 => q.b
  | 2 => q.c
  | 3 => q.d
  | _ => q.e

/-- Lane `i` of a quintuple of lane vectors. -/
def Quint.laneAt (q : Quint) (i : Nat) : WordQuint :=
  ⟨lane q.a i, lane q.b i, lane q.c i, lane q.d i, lane q.e i⟩

/-- The base functions on words (41_base_functions_round.md R110 to R114, the formulas of their comments). -/
def wordFn (fn : BaseFn) (b c d : Word) : Word :=
  match fn with
  | .f1 => b ^^^ c ^^^ d
  | .f2 => (b &&& c) ||| (~~~b &&& d)
  | .f3 => (b ||| ~~~c) ^^^ d
  | .f4 => (b &&& d) ||| (c &&& ~~~d)
  | .f5 => b ^^^ (c ||| ~~~d)

/-- The round primitive on words (41_base_functions_round.md R116, R117). -/
def wordRound (fn : BaseFn) (k x : Word) (rot : Nat) (q : WordQuint) : WordQuint :=
  ⟨q.e, (q.a + wordFn fn q.b q.c q.d + x + k).rotateLeft rot + q.e, q.b, q.c.rotateLeft 10, q.d⟩

/-- The initial constants as a quintuple (42_round_engine.md R132). -/
def wordIV : WordQuint := ⟨0x67452301, 0xEFCDAB89, 0x98BADCFE, 0x10325476, 0xC3D2E1F0⟩

/-- The quintuple of a branch after its first `j` rounds from the IV, on the message words `m`
(42_round_engine.md R130: "a function of the pair and of `X` alone"). -/
def wordAfter (b : Branch) (m : Nat → Word) : Nat → WordQuint
  | 0 => wordIV
  | j + 1 =>
    let e := scheduleEntry b j
    wordRound e.fn e.k (m e.idx.toNat) e.rot.toNat (wordAfter b m j)

/-- The combination of R151 on words, from the IV. -/
def wordCombine (l r : WordQuint) : WordQuint :=
  ⟨wordIV.b + l.c + r.d, wordIV.c + l.d + r.e, wordIV.d + l.e + r.a, wordIV.e + l.a + r.b,
    wordIV.a + l.b + r.c⟩

/-- The bytes of a word reversed: `x[7:0] ‖ x[15:8] ‖ x[23:16] ‖ x[31:24]` as a number (00_scope.md R11). -/
def wordSwap (w : Word) : Word :=
  BitVec.ofNat 32 (w.toNat % 256 * 2 ^ 24 + w.toNat / 2 ^ 8 % 256 * 2 ^ 16 + w.toNat / 2 ^ 16 % 256 * 2 ^ 8
    + w.toNat / 2 ^ 24)

/-- `compress : Word^16 -> Word^5`, the function a whole call computes on each lane (R155). -/
def compress (m : Nat → Word) : WordQuint :=
  let s := wordCombine (wordAfter .left m 80) (wordAfter .right m 80)
  ⟨wordSwap s.a, wordSwap s.b, wordSwap s.c, wordSwap s.d, wordSwap s.e⟩

/-! ### What a run keeps of the schedule -/

/-- Lane `i` of the message registers. -/
def State.messageLane (s : State) (i j : Nat) : Word := lane (s.X.getD j []) i

/-- The registers are what the schedule makes of the message (42_round_engine.md R130): in a call,
`L` is the IV after the first `JL` left rounds and `R` after the first `JR` right rounds, lane by
lane, and `S` is still the IV (10_state.md R21); in `FINALIZED`, `OUT` holds the digests
(43_block_finalizer.md R155). -/
structure State.OnSchedule (s : State) : Prop where
  left : s.inCall = true → ∀ i, i < s.n → s.L.laneAt i = wordAfter .left (s.messageLane i) s.JL
  right : s.inCall = true → ∀ i, i < s.n → s.R.laneAt i = wordAfter .right (s.messageLane i) s.JR
  svec : s.inCall = true → ∀ i, i < s.n → s.S.laneAt i = wordIV
  digest : s.PH = .finalized → ∀ i, i < s.n → ∀ j, j < 5 →
    s.OUT.word? (5 * i + j) = some ((compress (s.messageLane i)).get j)

/-! ### Which turns are legal -/

/-- Whether the agent at the head of `turns` may move as it does: the column "legal when" of
10_state.md table T-10.2 for the host, always for the engine (42_round_engine.md R142) and for
hardware reset (70_reset_and_hazards.md R180), and a code that is not reserved (30_encoding.md R77)
for the model's own turns (log 7). -/
def State.turnLegal (s : State) : Bool :=
  match s.turns with
  | .host (.writeIn i j _) :: _ =>
    (decide (s.PH = .idle) || decide (s.PH = .finalized)) && decide (i < s.n) && decide (j < 16)
  | .host .start :: _ => decide (s.PH = .idle) || decide (s.PH = .finalized)
  | .host .readStatus :: _ => true
  | .host (.readOut i j) :: _ => decide (s.PH = .finalized) && decide (i < s.n) && decide (j < 5)
  | .reset :: _ => true
  | .engine _ :: _ => true
  | .lvop w :: _ => decide (w.toNat < 10)
  | .fn w :: _ => decide (1 ≤ w.toNat) && decide (w.toNat ≤ 5)
  | [] => true

/-- The engine has the next turn: its own turn is at the head, or no turn is left. -/
def State.engineTurn (s : State) : Bool :=
  match s.turns with
  | [] => true
  | .engine _ :: _ => true
  | .host _ :: _ => false
  | .reset :: _ => false
  | .lvop _ :: _ => false
  | .fn _ :: _ => false

end Sys2Proof.Machine
end

