-- ==== Sys2Proof/Certificates/Slice0/Obligations.lean ====
section
/-! DEFINITION. The statements for the provers. `Host.Core.run Sys2Proof.core k` is `k` steps. -/

open Sys2Proof Sys2Proof.Machine

/-! ### Reset and build -/

/-- 70_reset_and_hazards.md section 1: after reset the block waits in `IDLE`, `done` is 0, the ROMs
hold their fixed contents and the engine has no enabled step. (That `State.reset` is the LANES = 1
instance is the model's choice, log 1; register values the spec leaves open are not stated.) -/
def Obligations.ResetWaitsInIdle : Prop :=
  State.reset = State.resetOf .one romTable ∧
  ∀ w : LaneWidth,
    (State.resetOf w romTable).lanes = w ∧ (State.resetOf w romTable).PH = .idle ∧
    statusCode (State.resetOf w romTable) = 0#2 ∧ done (State.resetOf w romTable) = false ∧
    (State.resetOf w romTable).ROM = romTable ∧ (State.resetOf w romTable).IVROM = ivTable ∧
    (∀ a, (State.resetOf w romTable).IN.word? a = none ∧ (State.resetOf w romTable).OUT.word? a = none) ∧
    nextAction (State.resetOf w romTable) = .idle

/-- The invariant holds of every instance right after reset. -/
def Obligations.ResetMeetsInvariant : Prop :=
  ∀ w : LaneWidth, (State.resetOf w romTable).Inv ∧ (State.resetOf w romTable).Genuine ∧
    (State.resetOf w romTable).OnSchedule

/-- 00_scope.md R8 and 60_exceptions.md R161: an instance whose `LANES` is not 1, 4 or 8, or whose ROM
fails the check, does not exist; every other one does. That the two failures are told apart, and that a
configuration with both is refused for its lane count, is the model's choice (log 21). -/
def Obligations.OnlyThreeLaneCountsBuild : Prop :=
  (∀ n rom s, instantiate n rom = .ok s →
    (n = 1 ∨ n = 4 ∨ n = 8) ∧ romWf rom = true ∧ s.n = n ∧ s.ROM = rom ∧ s.PH = .idle) ∧
  (∀ n rom, n ≠ 1 → n ≠ 4 → n ≠ 8 → instantiate n rom = .error .lanesNotSupported) ∧
  (∀ n rom, n = 1 ∨ n = 4 ∨ n = 8 → romWf rom = false → instantiate n rom = .error .romNotWellFormed) ∧
  (∀ n rom, n = 1 ∨ n = 4 ∨ n = 8 → romWf rom = true → ∃ s, instantiate n rom = .ok s ∧ s.n = n) ∧
  (∀ n, n = 1 ∨ n = 4 ∨ n = 8 → ∃ s, instantiate n romTable = .ok s ∧ s.n = n)

/-- 42_round_engine.md R139: what the check on a ROM accepts, and nothing else: 160 entries, each one
legal (`fn` in 1..5, reserved bits 0) with the base function R131 gives its address, and in each group
of sixteen every index 0..15 (so that the sixteen indices are a permutation). -/
def Obligations.RomCheckAcceptsExactlySchedules : Prop :=
  ∀ rom : List (BitVec 48), romWf rom = true ↔
    rom.length = 160 ∧
    (∀ a, a < 160 → ∃ w fn k idx rot, rom[a]? = some w ∧ decode (.s w) = .ok (.round fn k idx rot) ∧
      fn.number = (if a < 80 then a / 16 + 1 else 5 - (a - 80) / 16)) ∧
    (∀ g v, g < 10 → v < 16 → ∃ a w, 16 * g ≤ a ∧ a < 16 * g + 16 ∧ rom[a]? = some w ∧ (entryIdx w).toNat = v)

/-- 70_reset_and_hazards.md R180 and 10_state.md R35: hardware reset, in any state. The values of the
registers are free and not stated. The model's own: that `JL` and `JR` come out in 0..80, the range of
10_state.md R26 (log 4; R180 leaves them any value), and that `port` and `reply` are kept (log 4). -/
def Obligations.HardwareResetGoesToIdle : Prop :=
  ∀ (s : State) (rest : List Turn), s.turns = .reset :: rest →
    ∃ t, step s = .next t ∧ t.PH = .idle ∧ done t = false ∧ t.JL ≤ 80 ∧ t.JR ≤ 80 ∧
      (∀ a, t.IN.word? a = none ∧ t.OUT.word? a = none) ∧
      t.lanes = s.lanes ∧ t.ROM = s.ROM ∧ t.IVROM = s.IVROM ∧ t.port = s.port ∧ t.reply = s.reply ∧
      t.turns = rest ∧ (rest = [] → nextAction t = .idle)

/-! ### Encoding -/

/-- Decoding the code of an instruction gives it back, with every operand at every value. -/
def Obligations.DecodeOfEncodeIsIdentity : Prop :=
  ∀ i : Instr, decode (encode i) = .ok i

/-- Every valid code is the code of the instruction it decodes to: one meaning, one code. -/
def Obligations.EncodeOfDecodeIsIdentity : Prop :=
  ∀ (c : Code) (i : Instr), decode c = .ok i → encode i = c

/-- 30_encoding.md R77: the reserved encodings, and no others, are invalid; a ROM table holding one is
refused by the well-formedness check; the ROM has no address from 160 on; and none of these is met
at run time: every ROM entry is legal, the engine never leaves the ROM and never fetches format P. -/
def Obligations.ReservedEncodingsAreInvalid : Prop :=
  (∀ w : BitVec 48, (∃ e, decode (.s w) = .error e) ↔
    ((entryFn w).toNat = 0 ∨ (entryFn w).toNat = 6 ∨ (entryFn w).toNat = 7 ∨ entryRsv1 w ≠ 0 ∨ entryRsv0 w ≠ 0)) ∧
  (∀ w : BitVec 4, (∃ e, decode (.p w) = .error e) ↔ 10 ≤ w.toNat) ∧
  (∀ w : BitVec 3, (∃ e, decode (.f w) = .error e) ↔ (w.toNat = 0 ∨ w.toNat = 6 ∨ w.toNat = 7)) ∧
  (∀ rom : List (BitVec 48), (∃ w ∈ rom, ∃ e, decode (.s w) = .error e) → romWf rom = false) ∧
  (∀ a, 160 ≤ a → romTable[a]? = none) ∧
  (∀ w ∈ romTable, ∃ i, decode (.s w) = .ok i) ∧
  (∀ s : State, s.Genuine → (∀ a, engineAction s ≠ .noEntry a) ∧ (∀ w, engineAction s ≠ .run (.p w)))

/-- 30_encoding.md table T-30.1 and R72: where each field of a valid entry stands. -/
def Obligations.EntryFieldsStandInTheirBits : Prop :=
  ∀ (w : BitVec 48) (i : Instr), decode (.s w) = .ok i →
    ∃ e, i.entry? = some e ∧ i = .round e.fn e.k e.idx e.rot ∧
      e.fn.number = w.toNat / 2 ^ 44 % 8 ∧ e.k.toNat = w.toNat / 2 ^ 12 % 2 ^ 32 ∧
      e.idx.toNat = w.toNat / 2 ^ 8 % 16 ∧ e.rot.toNat = w.toNat % 32 ∧
      w.toNat = e.fn.number * 2 ^ 44 + e.k.toNat * 2 ^ 12 + e.idx.toNat * 2 ^ 8 + e.rot.toNat

/-- 95_test_vectors.md V-D70 and 30_encoding.md table T-30.2: some words and what they decode to. The
name of the reason an invalid word is given is the model's choice (log 22). -/
def Obligations.WordsDecodeAsTheSpecLists : Prop :=
  decode (.s 0x10000000000B) = .ok (.roundF1 0x00000000 0 11) ∧
  decode (.s 0x25A827999707) = .ok (.roundF2 0x5A827999 7 7) ∧
  decode (.s 0x550A28BE6508) = .ok (.roundF5 0x50A28BE6 5 8) ∧
  decode (.s 0x5A953FD4ED06) = .ok (.roundF5 0xA953FD4E 13 6) ∧
  decode (.s 0x1FFFFFFFFF1F) = .ok (.roundF1 0xFFFFFFFF 15 31) ∧
  decode (.s 0x90000000000B) = .error .rsv1NotZero ∧
  decode (.s 0x1000000000EB) = .error .rsv0NotZero ∧
  decode (.p 0b0111) = .ok .add32 ∧
  decode (.f 0b100) = .ok .f4

/-- 42_round_engine.md R132 to R139 and 30_encoding.md R73: the contents of the two ROMs. The initial
constants and the 160 words of table T-42.7 stand here as the spec prints them (from general
knowledge of the standard, log 12); the entry of round `j` of each branch is the one R131 gives, and
it is the entry `scheduleEntry` the word-level reference `compress` uses. -/
def Obligations.RomHoldsTheSchedule : Prop :=
  ivTable = [0x67452301, 0xEFCDAB89, 0x98BADCFE, 0x10325476, 0xC3D2E1F0] ∧
  romTable =
    (([0x10000000000B, 0x10000000010E, 0x10000000020F, 0x10000000030C, 0x100000000405, 0x100000000508, 0x100000000607, 0x100000000709,
     0x10000000080B, 0x10000000090D, 0x100000000A0E, 0x100000000B0F, 0x100000000C06, 0x100000000D07, 0x100000000E09, 0x100000000F08] : List (BitVec 48))
    ++ [0x25A827999707, 0x25A827999406, 0x25A827999D08, 0x25A82799910D, 0x25A827999A0B, 0x25A827999609, 0x25A827999F07, 0x25A82799930F,
     0x25A827999C07, 0x25A82799900C, 0x25A82799990F, 0x25A827999509, 0x25A82799920B, 0x25A827999E07, 0x25A827999B0D, 0x25A82799980C]
    ++ [0x36ED9EBA130B, 0x36ED9EBA1A0D, 0x36ED9EBA1E06, 0x36ED9EBA1407, 0x36ED9EBA190E, 0x36ED9EBA1F09, 0x36ED9EBA180D, 0x36ED9EBA110F,
     0x36ED9EBA120E, 0x36ED9EBA1708, 0x36ED9EBA100D, 0x36ED9EBA1606, 0x36ED9EBA1D05, 0x36ED9EBA1B0C, 0x36ED9EBA1507, 0x36ED9EBA1C05]
    ++ [0x48F1BBCDC10B, 0x48F1BBCDC90C, 0x48F1BBCDCB0E, 0x48F1BBCDCA0F, 0x48F1BBCDC00E, 0x48F1BBCDC80F, 0x48F1BBCDCC09, 0x48F1BBCDC408,
     0x48F1BBCDCD09, 0x48F1BBCDC30E, 0x48F1BBCDC705, 0x48F1BBCDCF06, 0x48F1BBCDCE08, 0x48F1BBCDC506, 0x48F1BBCDC605, 0x48F1BBCDC20C]
    ++ [0x5A953FD4E409, 0x5A953FD4E00F, 0x5A953FD4E505, 0x5A953FD4E90B, 0x5A953FD4E706, 0x5A953FD4EC08, 0x5A953FD4E20D, 0x5A953FD4EA0C,
     0x5A953FD4EE05, 0x5A953FD4E10C, 0x5A953FD4E30D, 0x5A953FD4E80E, 0x5A953FD4EB0B, 0x5A953FD4E608, 0x5A953FD4EF05, 0x5A953FD4ED06]
    ++ [0x550A28BE6508, 0x550A28BE6E09, 0x550A28BE6709, 0x550A28BE600B, 0x550A28BE690D, 0x550A28BE620F, 0x550A28BE6B0F, 0x550A28BE6405,
     0x550A28BE6D07, 0x550A28BE6607, 0x550A28BE6F08, 0x550A28BE680B, 0x550A28BE610E, 0x550A28BE6A0E, 0x550A28BE630C, 0x550A28BE6C06]
    ++ [0x45C4DD124609, 0x45C4DD124B0D, 0x45C4DD12430F, 0x45C4DD124707, 0x45C4DD12400C, 0x45C4DD124D08, 0x45C4DD124509, 0x45C4DD124A0B,
     0x45C4DD124E07, 0x45C4DD124F07, 0x45C4DD12480C, 0x45C4DD124C07, 0x45C4DD124406, 0x45C4DD12490F, 0x45C4DD12410D, 0x45C4DD12420B]
    ++ [0x36D703EF3F09, 0x36D703EF3507, 0x36D703EF310F, 0x36D703EF330B, 0x36D703EF3708, 0x36D703EF3E06, 0x36D703EF3606, 0x36D703EF390E,
     0x36D703EF3B0C, 0x36D703EF380D, 0x36D703EF3C05, 0x36D703EF320E, 0x36D703EF3A0D, 0x36D703EF300D, 0x36D703EF3407, 0x36D703EF3D05]
    ++ [0x27A6D76E980F, 0x27A6D76E9605, 0x27A6D76E9408, 0x27A6D76E910B, 0x27A6D76E930E, 0x27A6D76E9B0E, 0x27A6D76E9F06, 0x27A6D76E900E,
     0x27A6D76E9506, 0x27A6D76E9C09, 0x27A6D76E920C, 0x27A6D76E9D09, 0x27A6D76E990C, 0x27A6D76E9705, 0x27A6D76E9A0F, 0x27A6D76E9E08]
    ++ [0x100000000C08, 0x100000000F05, 0x100000000A0C, 0x100000000409, 0x10000000010C, 0x100000000505, 0x10000000080E, 0x100000000706,
     0x100000000608, 0x10000000020D, 0x100000000D06, 0x100000000E05, 0x10000000000F, 0x10000000030D, 0x10000000090B, 0x100000000B0B]) ∧
  romTable.length = 160 ∧ romWf romTable = true ∧
  (∀ j, j < 80 → ∃ w fn k idx rot, romTable[j]? = some w ∧ decode (.s w) = .ok (.round fn k idx rot) ∧
    scheduleEntry .left j = ⟨fn, k, idx, rot⟩ ∧ fn.number = j / 16 + 1 ∧ tableKL[j / 16]? = some k ∧
    tableRL[j]? = some idx.toNat ∧ tableSL[j]? = some rot.toNat) ∧
  (∀ j, j < 80 → ∃ w fn k idx rot, romTable[80 + j]? = some w ∧ decode (.s w) = .ok (.round fn k idx rot) ∧
    scheduleEntry .right j = ⟨fn, k, idx, rot⟩ ∧ fn.number = 5 - j / 16 ∧ tableKR[j / 16]? = some k ∧
    tableRR[j]? = some idx.toNat ∧ tableSR[j]? = some rot.toNat)

/-! ### Word functions and lane vectors -/

/-- 00_scope.md R11: the word functions on numbers, and the bitwise ones bit by bit. -/
def Obligations.WordFunctionsAsDefined : Prop :=
  (∀ x y : Word, (add32 x y).toNat = (x.toNat + y.toNat) % 2 ^ 32) ∧
  (∀ (x : Word) (n : BitVec 5), 0 < n.toNat →
    (rotl32 x n).toNat = x.toNat * 2 ^ n.toNat % 2 ^ 32 + x.toNat / 2 ^ (32 - n.toNat)) ∧
  (∀ x : Word, rotl32 x 0 = x) ∧
  (∀ x : Word, bswap32 x = x.extractLsb' 0 8 ++ x.extractLsb' 8 8 ++ x.extractLsb' 16 8 ++ x.extractLsb' 24 8) ∧
  (∀ x : Word, (not32 x).toNat = 2 ^ 32 - 1 - x.toNat) ∧
  (∀ (x y : Word) (m : Nat), (x &&& y).getLsbD m = (x.getLsbD m && y.getLsbD m) ∧
    (x ||| y).getLsbD m = (x.getLsbD m || y.getLsbD m) ∧ (x ^^^ y).getLsbD m = (x.getLsbD m ^^ y.getLsbD m))

/-- 00_scope.md R10: lane `i` occupies bits `32i+31:32i` of the physical register. -/
def Obligations.LaneOccupiesItsBits : Prop :=
  ∀ (v : LaneVec) (n i : Nat), i < n →
    packedLanes v n < 2 ^ (32 * n) ∧ packedLanes v n / 2 ^ (32 * i) % 2 ^ 32 = (lane v i).toNat

/-- 40_lane_vector.md, BROADCAST: "every lane set to the same 32-bit value". Constant and result stand
in the port: the model's choice (log 7). -/
def Obligations.BroadcastSetsEveryLane : Prop :=
  ∀ s : State, ∃ v, exec .broadcast s = .next { s with port := { s.port with result := v } } ∧
    v.length = s.n ∧ (∀ i, i < s.n → lane v i = s.port.k) ∧ (s.lanes = .one → v = [s.port.k])

/-- 40_lane_vector.md, LOAD_ROWS on `IN`: lane `i` gets word `16*i + j`; a word nobody has written is
a free value, of which nothing is stated (log 3). Index and result stand in the port: the model's
choice (log 7). -/
def Obligations.LoadRowsGathersOneWordPerLane : Prop :=
  ∀ s : State, ∃ v d,
    exec .loadRows s = .next { s with draws := d, port := { s.port with result := v } } ∧ v.length = s.n ∧
    ∀ i, i < s.n → ∀ w, s.IN.word? (16 * i + s.port.inIdx.val) = some w → lane v i = w

/-- 40_lane_vector.md, STORE_ROWS on `OUT`: lane `i` goes to word `5*i + j`, every other word of `OUT`
reads as before, and the canonical form is kept. That it is run on its own, takes its operands from
the port and writes `OUT` in any phase is the model's choice (log 7): no step of the spec does so. -/
def Obligations.StoreRowsScattersOneWordPerLane : Prop :=
  ∀ s : State, ∃ m, exec .storeRows s = .next { s with OUT := m } ∧
    (∀ i, i < s.n → m.word? (effectiveAddress 5 i s.port.outIdx.val) = some (lane s.port.x i)) ∧
    (∀ a, (∀ i, i < s.n → a ≠ effectiveAddress 5 i s.port.outIdx.val) → m.word? a = s.OUT.word? a) ∧
    (s.OUT.wf = true → m.wf = true)

/-- 40_lane_vector.md, AND. Operands and result stand in the port: the model's choice (log 7). -/
def Obligations.AndIsBitwisePerLane : Prop :=
  ∀ s : State, ∃ v, exec .and s = .next { s with port := { s.port with result := v } } ∧ v.length = s.n ∧
    ∀ i, i < s.n → ∀ m, (lane v i).getLsbD m = ((lane s.port.x i).getLsbD m && (lane s.port.y i).getLsbD m)

/-- 40_lane_vector.md, OR. Operands and result stand in the port: the model's choice (log 7). -/
def Obligations.OrIsBitwisePerLane : Prop :=
  ∀ s : State, ∃ v, exec .or s = .next { s with port := { s.port with result := v } } ∧ v.length = s.n ∧
    ∀ i, i < s.n → ∀ m, (lane v i).getLsbD m = ((lane s.port.x i).getLsbD m || (lane s.port.y i).getLsbD m)

/-- 40_lane_vector.md, XOR. Operands and result stand in the port: the model's choice (log 7). -/
def Obligations.XorIsBitwisePerLane : Prop :=
  ∀ s : State, ∃ v, exec .xor s = .next { s with port := { s.port with result := v } } ∧ v.length = s.n ∧
    ∀ i, i < s.n → ∀ m, (lane v i).getLsbD m = ((lane s.port.x i).getLsbD m ^^ (lane s.port.y i).getLsbD m)

/-- 40_lane_vector.md, NOT. Operands and result stand in the port: the model's choice (log 7). -/
def Obligations.NotComplementsEveryBit : Prop :=
  ∀ s : State, ∃ v, exec .not s = .next { s with port := { s.port with result := v } } ∧ v.length = s.n ∧
    ∀ i, i < s.n → (lane v i).toNat = 0xFFFFFFFF - (lane s.port.x i).toNat

/-- 40_lane_vector.md, ADD32. Operands and result stand in the port: the model's choice (log 7). -/
def Obligations.Add32WrapsPerLane : Prop :=
  ∀ s : State, ∃ v, exec .add32 s = .next { s with port := { s.port with result := v } } ∧ v.length = s.n ∧
    ∀ i, i < s.n → (lane v i).toNat = ((lane s.port.x i).toNat + (lane s.port.y i).toNat) % 2 ^ 32

/-- 40_lane_vector.md R94 to R97: codes, results bit by bit, corner cases and examples. -/
def Obligations.BitwisePrimitivesAsDefined : Prop :=
  (decode (.p 3) = .ok .and ∧ decode (.p 4) = .ok .or ∧ decode (.p 5) = .ok .xor ∧ decode (.p 6) = .ok .not) ∧
  (∀ (n : Nat) (x y : LaneVec), (andV n x y).length = n ∧ (orV n x y).length = n ∧ (xorV n x y).length = n ∧
    (notV n x).length = n ∧
    ∀ i, i < n →
      (∀ m, (lane (andV n x y) i).getLsbD m = ((lane x i).getLsbD m && (lane y i).getLsbD m) ∧
        (lane (orV n x y) i).getLsbD m = ((lane x i).getLsbD m || (lane y i).getLsbD m) ∧
        (lane (xorV n x y) i).getLsbD m = ((lane x i).getLsbD m ^^ (lane y i).getLsbD m)) ∧
      (lane (notV n x) i).toNat = 0xFFFFFFFF - (lane x i).toNat ∧
      lane (andV n x x) i = lane x i ∧ lane (andV n x (notV n x)) i = 0 ∧
      lane (orV n x x) i = lane x i ∧ lane (orV n x (notV n x)) i = 0xFFFFFFFF ∧
      lane (xorV n x x) i = 0 ∧ lane (xorV n x (broadcast n 0xFFFFFFFF)) i = lane (notV n x) i ∧
      lane (notV n (notV n x)) i = lane x i) ∧
  lane (andV 1 [0xEFCDAB89] [0x98BADCFE]) 0 = 0x88888888 ∧ lane (orV 1 [0xEFCDAB89] [0x98BADCFE]) 0 = 0xFFFFFFFF ∧
  lane (xorV 1 [0xEFCDAB89] [0x98BADCFE]) 0 = 0x77777777 ∧ lane (notV 1 [0]) 0 = 0xFFFFFFFF ∧
  lane (notV 1 [0xEFCDAB89]) 0 = 0x10325476

/-- 40_lane_vector.md R98: code, wrapping in each lane separately, corner cases and example. -/
def Obligations.AdditionWrapsWithoutCarry : Prop :=
  decode (.p 7) = .ok .add32 ∧
  (∀ (n : Nat) (x y z : LaneVec), (addV n x y).length = n ∧
    (∀ i, i < n → (lane (addV n x y) i).toNat = ((lane x i).toNat + (lane y i).toNat) % 2 ^ 32) ∧
    addV n x y = addV n y x ∧ addV n (addV n x y) z = addV n x (addV n y z)) ∧
  addV 4 [0xFFFFFFFF, 0x80000000, 0xFFFFFFFF, 0xEFCDAB89] [1, 0x80000000, 0xFFFFFFFF, 0x98BADCFE]
    = [0, 0, 0xFFFFFFFE, 0x88888887]

/-- 40_lane_vector.md, ROTL: bit `m` becomes bit `(m + n) mod 32`; the amount 0 is the identity. Operand,
amount and result stand in the port: the model's choice (log 7). -/
def Obligations.RotlMovesEveryBit : Prop :=
  ∀ s : State, ∃ v, exec .rotl s = .next { s with port := { s.port with result := v } } ∧ v.length = s.n ∧
    ∀ i, i < s.n →
      (∀ m, m < 32 → (lane v i).getLsbD ((m + s.port.n.toNat) % 32) = (lane s.port.x i).getLsbD m) ∧
      (s.port.n = 0 → lane v i = lane s.port.x i)

/-- 40_lane_vector.md, BYTESWAP: bytes 0, 1, 2, 3 become bytes 3, 2, 1, 0; twice is the identity.
Operand and result stand in the port: the model's choice (log 7). -/
def Obligations.ByteswapReversesBytes : Prop :=
  (∀ s : State, ∃ v, exec .byteswap s = .next { s with port := { s.port with result := v } } ∧ v.length = s.n ∧
    ∀ i, i < s.n → ∀ k, k < 4 → byteOf (lane v i) k = byteOf (lane s.port.x i) (3 - k)) ∧
  (∀ (n i : Nat) (x : LaneVec), i < n → lane (byteswapV n (byteswapV n x)) i = lane x i)

/-! ### Base functions -/

/-- 41_base_functions_round.md table T-41.1: the result bit of each base function for every
combination of input bits, in every lane. Operands and result stand in the port: the model's choice
(log 7). -/
def Obligations.BaseFunctionsFollowTruthTable : Prop :=
  ∀ (fn : BaseFn) (s : State), ∃ v,
    exec (.function fn) s = .next { s with port := { s.port with result := v } } ∧ v.length = s.n ∧
    ∀ i, i < s.n → ∀ m, m < 32 → (lane v i).getLsbD m =
      (match fn, (lane s.port.x i).getLsbD m, (lane s.port.y i).getLsbD m, (lane s.port.z i).getLsbD m with
      | .f1, b, c, d => (b ^^ c) ^^ d
      | .f2, true, c, _ => c
      | .f2, false, _, d => d
      | .f3, b, c, d => (b || !c) ^^ d
      | .f4, b, _, true => b
      | .f4, _, c, false => c
      | .f5, b, c, d => b ^^ (c || !d))

/-- 41_base_functions_round.md R110 to R114: encodings, formulas, corner cases and examples. -/
def Obligations.BaseFunctionsAsDefined : Prop :=
  (decode (.f 1) = .ok .f1 ∧ decode (.f 2) = .ok .f2 ∧ decode (.f 3) = .ok .f3 ∧ decode (.f 4) = .ok .f4 ∧
    decode (.f 5) = .ok .f5) ∧
  (∀ (n : Nat) (fn : BaseFn) (b c d : LaneVec), (selectFn n fn b c d).length = n ∧
    ∀ i, i < n → lane (selectFn n fn b c d) i = wordFn fn (lane b i) (lane c i) (lane d i)) ∧
  (∀ (n : Nat) (b c d : LaneVec), selectFn n .f1 b c d = fnF1 n b c d ∧ selectFn n .f2 b c d = fnF2 n b c d ∧
    selectFn n .f3 b c d = fnF3 n b c d ∧ selectFn n .f4 b c d = fnF4 n b c d ∧ selectFn n .f5 b c d = fnF5 n b c d) ∧
  (∀ (n i : Nat) (x b c d : LaneVec), i < n →
    lane (fnF1 n b c d) i = lane (fnF1 n d c b) i ∧ lane (fnF1 n b c d) i = lane (fnF1 n b d c) i ∧
    lane (fnF1 n x x d) i = lane d i ∧
    (∀ m, (lane (fnF2 n b c d) i).getLsbD m =
      if (lane b i).getLsbD m then (lane c i).getLsbD m else (lane d i).getLsbD m) ∧
    lane (andV n (andV n b c) (andV n (notV n b) d)) i = 0 ∧
    lane (fnF2 n b c d) i = lane (xorV n (andV n b c) (andV n (notV n b) d)) i ∧
    lane (fnF2 n b c d) i = lane (addV n (andV n b c) (andV n (notV n b) d)) i ∧
    (∀ m, (lane (fnF4 n b c d) i).getLsbD m =
      if (lane d i).getLsbD m then (lane b i).getLsbD m else (lane c i).getLsbD m) ∧
    lane (fnF4 n b c d) i = lane (fnF2 n d b c) i ∧ lane (fnF5 n b c d) i = lane (fnF3 n c d b) i) ∧
  fnF3 1 [0] [0] [0] = [0xFFFFFFFF] ∧ fnF5 1 [0] [0] [0] = [0xFFFFFFFF] ∧
  fnF1 1 [0xEFCDAB89] [0x98BADCFE] [0x10325476] = [0x67452301] ∧
  fnF2 1 [0xEFCDAB89] [0x98BADCFE] [0x10325476] = [0x98BADCFE] ∧
  fnF3 1 [0xEFCDAB89] [0x98BADCFE] [0x10325476] = [0xFFFFFFFF] ∧
  fnF4 1 [0xEFCDAB89] [0x98BADCFE] [0x10325476] = [0x88888888] ∧
  fnF5 1 [0xEFCDAB89] [0x98BADCFE] [0x10325476] = [0x10325476]

/-! ### ROUND -/

/-- 42_round_engine.md R127 with 41_base_functions_round.md R116: the left ROUND step, for each of the
five micro-instructions, wherever the engine takes the left branch (the turn prefers it, or prefers
none and the default order gives it, or the right branch is complete; log 5). Everything but `L`,
`JL` and `PH` is unchanged. -/
def Obligations.LeftRoundStep : Prop :=
  ∀ (s : State) (fn : BaseFn) (k : Word) (idx : BitVec 4) (rot : BitVec 5),
    s.PH = .initialized ∨ s.PH = .round → s.JL < 80 →
    s.preference.getD s.defaultBranch = .left ∨ ¬ s.JR < 80 →
    ∃ q, exec (.round fn k idx rot) s = .next { s with L := q, JL := s.JL + 1, PH := .round } ∧
      (s.L.Sized s.n → q.Sized s.n) ∧
      ∀ i, i < s.n → ∃ t : Word,
        t = lane s.L.a i + wordFn fn (lane s.L.b i) (lane s.L.c i) (lane s.L.d i)
            + lane (s.X.getD idx.toNat []) i + k ∧
        lane q.a i = lane s.L.e i ∧ lane q.b i = t.rotateLeft rot.toNat + lane s.L.e i ∧
        lane q.c i = lane s.L.b i ∧ lane q.d i = (lane s.L.c i).rotateLeft 10 ∧ lane q.e i = lane s.L.d i

/-- 42_round_engine.md R128 with 41_base_functions_round.md R116: the right ROUND step, likewise. -/
def Obligations.RightRoundStep : Prop :=
  ∀ (s : State) (fn : BaseFn) (k : Word) (idx : BitVec 4) (rot : BitVec 5),
    s.PH = .initialized ∨ s.PH = .round → s.JR < 80 →
    s.preference.getD s.defaultBranch = .right ∨ ¬ s.JL < 80 →
    ∃ q, exec (.round fn k idx rot) s = .next { s with R := q, JR := s.JR + 1, PH := .round } ∧
      (s.R.Sized s.n → q.Sized s.n) ∧
      ∀ i, i < s.n → ∃ t : Word,
        t = lane s.R.a i + wordFn fn (lane s.R.b i) (lane s.R.c i) (lane s.R.d i)
            + lane (s.X.getD idx.toNat []) i + k ∧
        lane q.a i = lane s.R.e i ∧ lane q.b i = t.rotateLeft rot.toNat + lane s.R.e i ∧
        lane q.c i = lane s.R.b i ∧ lane q.d i = (lane s.R.c i).rotateLeft 10 ∧ lane q.e i = lane s.R.d i

/-- 42_round_engine.md R127, R128: where no ROUND step is enabled, no ROUND micro-instruction runs
(the refusal is the model's, log 13). -/
def Obligations.RoundNeedsAnEnabledBranch : Prop :=
  ∀ (s : State) (fn : BaseFn) (k : Word) (idx : BitVec 4) (rot : BitVec 5),
    (∃ t, exec (.round fn k idx rot) s = .next t) ↔
      ((s.PH = .initialized ∨ s.PH = .round) ∧ (s.JL < 80 ∨ s.JR < 80))

/-- 42_round_engine.md R129: when both branches have a ROUND step the engine may take either; when
only one has, it takes that one. The branch it does not take keeps its quintuple and its counter.
That a turn says which one the engine takes is the model's choice (log 5). -/
def Obligations.EngineMayTakeEitherBranch : Prop :=
  ∀ (s : State) (b : Branch) (rest : List Turn), s.Genuine → s.PH = .initialized ∨ s.PH = .round →
    s.turns = .engine (some b) :: rest →
    (s.count b < 80 → ∃ t, step s = .next t ∧ t.count b = s.count b + 1 ∧
      t.count b.other = s.count b.other ∧ t.quint b.other = s.quint b.other ∧ t.PH = .round ∧ t.turns = rest) ∧
    (¬ s.count b < 80 → s.count b.other < 80 → ∃ t, step s = .next t ∧ t.count b.other = s.count b.other + 1 ∧
      t.count b = s.count b ∧ t.quint b = s.quint b ∧ t.PH = .round ∧ t.turns = rest)

/-- 42_round_engine.md R130: an adjacent left step and right step can be exchanged without changing
the state after both. -/
def Obligations.LeftAndRightStepsCommute : Prop :=
  ∀ (s : State) (rest : List Turn), s.Genuine → s.PH = .initialized ∨ s.PH = .round → s.JL < 80 → s.JR < 80 →
    ∃ t : State, Host.Core.run core 2 { s with turns := .engine (some .left) :: .engine (some .right) :: rest } = .next t ∧
      Host.Core.run core 2 { s with turns := .engine (some .right) :: .engine (some .left) :: rest } = .next t ∧
      t.JL = s.JL + 1 ∧ t.JR = s.JR + 1 ∧ t.turns = rest

/-- 42_round_engine.md R143: the default issue order is strict alternation starting with the left
branch: after `k` engine steps from `INITIALIZED`, `JL` is half of `k` rounded up and `JR` rounded down.
That the engine moves when no turn is left is the model's choice (log 5). -/
def Obligations.DefaultOrderAlternates : Prop :=
  ∀ (s : State), s.Genuine → s.PH = .initialized → s.JL = 0 → s.JR = 0 → s.turns = [] →
    ∀ k, k ≤ 160 → ∃ t : State, Host.Core.run core k s = .next t ∧ t.JL = (k + 1) / 2 ∧ t.JR = k / 2

/-! ### START, FINAL and the host -/

/-- 42_round_engine.md R126: START. A word of `IN` nobody has written is a free value (log 3). -/
def Obligations.StartInitialisesTheCall : Prop :=
  ∀ (s : State) (rest : List Turn), s.IVROM = ivTable → s.PH = .idle ∨ s.PH = .finalized →
    s.turns = .host .start :: rest →
    ∃ q xs d, step s = .next { s with S := q, L := q, R := q, X := xs, JL := 0, JR := 0, PH := .initialized, draws := d, turns := rest } ∧
      q.Sized s.n ∧ (∀ i, i < s.n → q.laneAt i = ⟨0x67452301, 0xEFCDAB89, 0x98BADCFE, 0x10325476, 0xC3D2E1F0⟩) ∧
      xs.length = 16 ∧ (∀ v ∈ xs, v.length = s.n) ∧
      ∀ i, i < s.n → ∀ j, j < 16 → ∀ w, s.IN.word? (16 * i + j) = some w → lane (xs.getD j []) i = w

/-- 43_block_finalizer.md R150 to R154 and 10_state.md table T-10.3: FINAL, on any turn of the engine
(no turn left included, log 5). That `S` holds the un-swapped words is the model's choice (log 16). -/
def Obligations.FinalCombinesAndStores : Prop :=
  ∀ s : State, s.PH = .round → s.JL = 80 → s.JR = 80 → s.engineTurn = true →
    ∃ q m, step s = .next { s with S := q, OUT := m, PH := .finalized, turns := s.turns.tail } ∧ q.Sized s.n ∧
      (∀ i, i < s.n →
        lane q.a i = lane s.S.b i + lane s.L.c i + lane s.R.d i ∧
        lane q.b i = lane s.S.c i + lane s.L.d i + lane s.R.e i ∧
        lane q.c i = lane s.S.d i + lane s.L.e i + lane s.R.a i ∧
        lane q.d i = lane s.S.e i + lane s.L.a i + lane s.R.b i ∧
        lane q.e i = lane s.S.a i + lane s.L.b i + lane s.R.c i ∧
        m.word? (5 * i + 0) = some (wordSwap (lane q.a i)) ∧ m.word? (5 * i + 1) = some (wordSwap (lane q.b i)) ∧
        m.word? (5 * i + 2) = some (wordSwap (lane q.c i)) ∧ m.word? (5 * i + 3) = some (wordSwap (lane q.d i)) ∧
        m.word? (5 * i + 4) = some (wordSwap (lane q.e i))) ∧
      (∀ a, 5 * s.n ≤ a → m.word? a = s.OUT.word? a) ∧ (s.OUT.wf = true → m.wf = true)

/-- 42_round_engine.md R140: with both branches complete no ROUND step is enabled and FINAL is the
engine's only step; FINAL is not enabled earlier. Which turns are the engine's is the model's choice
(log 5). -/
def Obligations.FinalOnlyAfterBothBranches : Prop :=
  (∀ s : State, s.PH = .round → s.JL = 80 → s.JR = 80 → s.engineTurn = true →
    s.nextBranch = none ∧ nextAction s = .final) ∧
  (∀ s : State, nextAction s = .final → s.PH = .round ∧ s.JL = 80 ∧ s.JR = 80 ∧ s.nextBranch = none)

/-- 70_reset_and_hazards.md R183 to R185: the host actions a model refuses. The model's own: that a turn
says when the host acts (log 5), the names of the three refusals, and that an action whose lane or index
is outside table T-10.2 too is refused for its phase, which is looked at before the indices (log 14). -/
def Obligations.IllegalHostActionsRefused : Prop :=
  ∀ (s : State) (rest : List Turn),
    (s.PH = .initialized ∨ s.PH = .round →
      (s.turns = .host .start :: rest → step s = .refused .hostStartInCall) ∧
      (∀ i j w, s.turns = .host (.writeIn i j w) :: rest → step s = .refused .hostWriteInCall)) ∧
    (s.PH ≠ .finalized →
      ∀ i j, s.turns = .host (.readOut i j) :: rest → step s = .refused .hostReadOutNotFinalized)

/-- 10_state.md table T-10.2, `HostWriteIN`: one word of `IN` is written, every other word reads as
before, and the canonical form is kept. -/
def Obligations.HostWritesOneInputWord : Prop :=
  ∀ (s : State) (i j : Nat) (w : Word) (rest : List Turn), s.PH = .idle ∨ s.PH = .finalized → i < s.n → j < 16 →
    s.turns = .host (.writeIn i j w) :: rest →
    ∃ m, step s = .next { s with IN := m, turns := rest } ∧ m.word? (effectiveAddress 16 i j) = some w ∧
      (∀ a, a ≠ effectiveAddress 16 i j → m.word? a = s.IN.word? a) ∧ (s.IN.wf = true → m.wf = true)

/-- 10_state.md table T-10.2, `HostReadOUT`: returns the word of `OUT`, and changes nothing of the
spec's state. That it is returned in `reply` (log 11) and counted as a draw (log 3) is the model's choice. -/
def Obligations.HostReadsOneOutputWord : Prop :=
  ∀ (s : State) (i j : Nat) (rest : List Turn), s.PH = .finalized → i < s.n → j < 5 →
    s.turns = .host (.readOut i j) :: rest →
    ∃ r d, step s = .next { s with reply := .word r, draws := d, turns := rest } ∧
      ∀ w, s.OUT.word? (5 * i + j) = some w → r = w

/-- 10_state.md R25 and table T-10.2, `HostReadStatus`: legal in every phase, returns the phase's code.
That it is returned in `reply` is the model's choice (log 11). -/
def Obligations.StatusReturnsThePhaseCode : Prop :=
  ∀ (s : State) (rest : List Turn), s.turns = .host .readStatus :: rest →
    ∃ c : BitVec 2, step s = .next { s with reply := .status c, turns := rest } ∧
      (s.PH = .idle → c = 0b00) ∧ (s.PH = .initialized → c = 0b01) ∧ (s.PH = .round → c = 0b10) ∧
      (s.PH = .finalized → c = 0b11) ∧ (done s = true ↔ c = 0b11)

/-! ### The machine as a whole -/

/-- When the code that is fetched decodes to an instruction, the step is that instruction's meaning
followed by the end of the turn; and what is fetched in each turn (30_encoding.md R73, log 5, log 7). -/
def Obligations.StepRunsTheDecodedInstruction : Prop :=
  (∀ (s : State) (c : Code) (i : Instr), nextAction s = .run c → decode c = .ok i →
    step s = afterNext (fun u => { u with turns := u.turns.tail }) (exec i s)) ∧
  (∀ (s : State) (b : Branch) (w : BitVec 48), s.engineTurn = true → s.nextBranch = some b →
    s.ROM[s.romAddress b]? = some w → nextAction s = .run (.s w)) ∧
  (∀ (s : State) (w : BitVec 4) (rest : List Turn), s.turns = .lvop w :: rest → nextAction s = .run (.p w)) ∧
  (∀ (s : State) (w : BitVec 3) (rest : List Turn), s.turns = .fn w :: rest → nextAction s = .run (.f w))

/-- A code placed by `placeCode` is what the next step fetches (log 10). -/
def Obligations.PlacedCodeIsFetchedNext : Prop :=
  ∀ (s : State) (c : Code), s.ROM.length = 160 → nextAction (placeCode s c) = .run c

/-- Every step keeps the invariant, from every state that meets it. -/
def Obligations.StepKeepsInvariant : Prop :=
  ∀ s t : State, s.Inv → step s = .next t → t.Inv

/-- 42_round_engine.md R130 and 43_block_finalizer.md R155 as an invariant: every step of the spec keeps
the registers on the schedule, whatever the issue order. -/
def Obligations.StepKeepsSchedule : Prop :=
  ∀ s t : State, s.Genuine → s.OnSchedule → (∀ u ∈ s.turns.head?, u.ofSpec = true) → step s = .next t →
    t.OnSchedule

/-- 42_round_engine.md table T-42.1: how the phase and the counters move in any step. -/
def Obligations.PhaseFollowsTransitionTable : Prop :=
  ∀ s t : State, step s = .next t →
    (t.PH = s.PH ∧ t.JL = s.JL ∧ t.JR = s.JR) ∨
    (s.turns.head? = some .reset ∧ t.PH = .idle) ∨
    (s.turns.head? = some (.host .start) ∧ (s.PH = .idle ∨ s.PH = .finalized) ∧
      t.PH = .initialized ∧ t.JL = 0 ∧ t.JR = 0) ∨
    ((s.PH = .initialized ∨ s.PH = .round) ∧ s.JL < 80 ∧ t.PH = .round ∧ t.JL = s.JL + 1 ∧ t.JR = s.JR) ∨
    ((s.PH = .initialized ∨ s.PH = .round) ∧ s.JR < 80 ∧ t.PH = .round ∧ t.JL = s.JL ∧ t.JR = s.JR + 1) ∨
    (s.PH = .round ∧ s.JL = 80 ∧ s.JR = 80 ∧ t.PH = .finalized ∧ t.JL = 80 ∧ t.JR = 80)

/-- 70_reset_and_hazards.md table T-70.1 and 60_exceptions.md R160: no step faults, and a step of a
genuine instance answers a next state exactly when the turn is legal. The model's own: an engine turn
with no enabled step answers the same state (log 6; 42_round_engine.md R142 says there is no step
there), an index out of range is refused (log 14), and the turns that run a code alone (log 7). -/
def Obligations.StepAnswersExactlyOnLegalTurns : Prop :=
  (∀ (s : State) (f : Fault), step s ≠ .fault f) ∧
  (∀ s : State, s.Inv → s.Genuine → ((∃ t, step s = .next t) ↔ s.turnLegal = true))

/-- 42_round_engine.md R142: in a call the engine always has an enabled step, a ROUND step or FINAL;
in `IDLE` and `FINALIZED` it has none, and the turn changes nothing (that the step answers there is the
model's choice, log 6). -/
def Obligations.EngineAlwaysProgresses : Prop :=
  (∀ s : State, s.Inv → s.Genuine → s.engineTurn = true → s.PH = .initialized ∨ s.PH = .round →
    ∃ t, step s = .next t ∧
      ((s.JL + s.JR < 160 ∧ t.PH = .round ∧ t.JL + t.JR = s.JL + s.JR + 1) ∨
       (s.JL + s.JR = 160 ∧ t.PH = .finalized))) ∧
  (∀ s : State, s.engineTurn = true → s.PH = .idle ∨ s.PH = .finalized →
    step s = .next { s with turns := s.turns.tail })

/-- 10_state.md table T-10.3: which steps of the spec, hardware reset apart, write what. -/
def Obligations.StepWritesOnlyItsRow : Prop :=
  ∀ s t : State, step s = .next t → (∀ u ∈ s.turns.head?, u.ofSpec = true) → s.turns.head? ≠ some .reset →
    (t.IN ≠ s.IN → ∃ i j w, s.turns.head? = some (.host (.writeIn i j w))) ∧
    (t.OUT ≠ s.OUT → s.PH = .round ∧ t.PH = .finalized) ∧
    (t.X ≠ s.X → s.turns.head? = some (.host .start)) ∧
    (t.S ≠ s.S → s.turns.head? = some (.host .start) ∨ (s.PH = .round ∧ t.PH = .finalized)) ∧
    (t.L ≠ s.L → s.turns.head? = some (.host .start) ∨ (t.JL = s.JL + 1 ∧ t.R = s.R)) ∧
    (t.R ≠ s.R → s.turns.head? = some (.host .start) ∨ (t.JR = s.JR + 1 ∧ t.L = s.L)) ∧
    (t.reply ≠ s.reply → s.turns.head? = some (.host .readStatus) ∨ ∃ i j, s.turns.head? = some (.host (.readOut i j))) ∧
    t.port = s.port

/-- 20_memory.md R63 and 00_scope.md R6: no step of any agent changes `ROM`, `IVROM` or `LANES`. -/
def Obligations.ConstantsNeverChange : Prop :=
  ∀ s t : State, step s = .next t → t.ROM = s.ROM ∧ t.IVROM = s.IVROM ∧ t.lanes = s.lanes

/-- 70_reset_and_hazards.md R192 and 42_round_engine.md R125: which step is taken and where the phase and
the counters go depends on no lane vector, message word or buffer. (After hardware reset the counters
are free values, and that two states with equal `draws` get equal ones is the model's choice, log 20.) -/
def Obligations.ControlIsDataIndependent : Prop :=
  ∀ s s' t : State, s'.lanes = s.lanes → s'.ROM = s.ROM → s'.PH = s.PH → s'.JL = s.JL → s'.JR = s.JR →
    s'.turns = s.turns → s'.draws = s.draws → step s = .next t →
    ∃ t', step s' = .next t' ∧ t'.PH = t.PH ∧ t'.JL = t.JL ∧ t'.JR = t.JR ∧ t'.turns = t.turns ∧
      t'.draws = t.draws

/-- 43_block_finalizer.md R155: what a whole call computes, for every lane count and every issue order
(the order is the turns', log 5): START and 161 engine turns, whatever branches the turns prefer, leave
in each lane's row of `OUT` the function `compress` of the sixteen words of that lane's row of `IN`. -/
def Obligations.WholeCallComputesCompress : Prop :=
  ∀ (s : State) (picks : List (Option Branch)) (rest : List Turn), s.Inv → s.Genuine →
    s.PH = .idle ∨ s.PH = .finalized → picks.length = 161 →
    s.turns = .host .start :: (picks.map Turn.engine ++ rest) →
    ∃ t : State, Host.Core.run core 162 s = .next t ∧ t.PH = .finalized ∧ t.JL = 80 ∧ t.JR = 80 ∧ t.turns = rest ∧
      t.IN = s.IN ∧
      ∀ i, i < s.n → ∀ m : Nat → Word, (∀ j, j < 16 → s.IN.word? (16 * i + j) = some (m j)) →
        ∀ j, j < 5 → t.OUT.word? (5 * i + j) = some ((compress m).get j)

/-- 30_encoding.md R80 and 42_round_engine.md R142: the script `CALL`, unrolled (log 19), runs to its
end, its last read of STATUS returns `FINALIZED` (in `reply`, log 11), and the digests are in `OUT`. -/
def Obligations.CallScriptEndsFinalized : Prop :=
  ∀ (s : State) (rest : List Turn), s.Inv → s.Genuine → s.PH = .idle ∨ s.PH = .finalized →
    s.turns = callTurns ++ rest →
    ∃ t : State, Host.Core.run core 324 s = .next t ∧ t.PH = .finalized ∧ t.reply = .status 0b11 ∧ t.turns = rest ∧
      ∀ i, i < s.n → ∀ m : Nat → Word, (∀ j, j < 16 → s.IN.word? (16 * i + j) = some (m j)) →
        ∀ j, j < 5 → t.OUT.word? (5 * i + j) = some ((compress m).get j)

/-- 40_lane_vector.md R103 and 10_state.md R34: two calls, of instances of any lane counts, with any issue
orders and any history, give equal digests in lanes whose sixteen words are equal. -/
def Obligations.DigestDependsOnOwnLaneOnly : Prop :=
  ∀ (s s' : State) (picks picks' : List (Option Branch)) (rest rest' : List Turn) (i i' : Nat),
    s.Inv → s.Genuine → s.PH = .idle ∨ s.PH = .finalized → picks.length = 161 →
    s.turns = .host .start :: (picks.map Turn.engine ++ rest) →
    s'.Inv → s'.Genuine → s'.PH = .idle ∨ s'.PH = .finalized → picks'.length = 161 →
    s'.turns = .host .start :: (picks'.map Turn.engine ++ rest') →
    i < s.n → i' < s'.n →
    (∀ j, j < 16 → (s.IN.word? (16 * i + j)).isSome = true ∧ s'.IN.word? (16 * i' + j) = s.IN.word? (16 * i + j)) →
    ∃ t t' : State, Host.Core.run core 162 s = .next t ∧ Host.Core.run core 162 s' = .next t' ∧
      ∀ j, j < 5 → (t.OUT.word? (5 * i + j)).isSome = true ∧ t'.OUT.word? (5 * i' + j) = t.OUT.word? (5 * i + j)

/-- 60_exceptions.md R170: an instance's step touches no other instance. -/
def Obligations.InstancesShareNoState : Prop :=
  ∀ (k l : Nat) (sys sys' : List State), stepInstance k sys = .next sys' →
    sys'.length = sys.length ∧ (k ≠ l → sys'[l]? = sys[l]?) ∧
    (∀ s, sys[k]? = some s → ∃ t, step s = .next t ∧ sys'[k]? = some t)

/-! ### Byte strings on the host's side -/

/-- 20_memory.md R58: the input words of a 64-byte block, `m[4j]` least significant. -/
def Obligations.InputWordsAreLittleEndian : Prop :=
  ∀ m : List Byte, m.length = 64 → (packBytes m).length = 16 ∧
    ∀ j, j < 16 → ((packBytes m).getD j 0).toNat =
      (m.getD (4 * j) 0).toNat + 2 ^ 8 * (m.getD (4 * j + 1) 0).toNat + 2 ^ 16 * (m.getD (4 * j + 2) 0).toNat
        + 2 ^ 24 * (m.getD (4 * j + 3) 0).toNat

/-- 20_memory.md R59: the digest bytes are the big-endian serialisation of the five `OUT` words, which is
the little-endian serialisation of the words before the swap. -/
def Obligations.DigestBytesAreBigEndian : Prop :=
  (∀ ws : List Word, ws.length = 5 → (digestBytes ws).length = 20 ∧
    ∀ j k, j < 5 → k < 4 → (digestBytes ws).getD (4 * j + k) 0 = (ws.getD j 0).extractLsb' (24 - 8 * k) 8) ∧
  (∀ (ws : List Word) (j k : Nat), j < ws.length → k < 4 →
    (digestBytes (ws.map bswap32)).getD (4 * j + k) 0 = byteOf (ws.getD j 0) k)

/-- 70_reset_and_hazards.md R182 (3): the framed block of a message of at most 55 bytes. -/
def Obligations.FramedBlockOfShortMessage : Prop :=
  (∀ m : List Byte, m.length ≤ 55 → ∃ b, frameMessage m = some b ∧ b.length = 64 ∧
    (∀ k, k < m.length → b[k]? = m[k]?) ∧ b[m.length]? = some 0x80 ∧
    (∀ k, m.length < k → k < 56 → b[k]? = some 0) ∧
    ((packBytes b).getD 14 0).toNat = 8 * m.length ∧ (packBytes b).getD 15 0 = 0) ∧
  (∀ m : List Byte, 55 < m.length → frameMessage m = none)
end

