-- ==== Sys2Proof/Laws/Build.lean ====
section
/-! SUPPORT. What the check on a ROM asks, piece by piece. -/

namespace Sys2Proof.Machine

/-- The entries of a ROM, when every word has one. -/
theorem mapM_eq_some_iff {f : BitVec 48 → Option Entry} : ∀ (l : List (BitVec 48)) (es : List Entry),
    l.mapM f = some es ↔ l.map f = es.map some := by
  intro l
  induction l with
  | nil => intro es; cases es <;> simp
  | cons a l ih =>
    intro es
    cases ha : f a with
    | none => cases es <;> simp [List.mapM_cons, ha]
    | some e =>
      cases hl : l.mapM f with
      | none =>
        cases es with
        | nil => simp [List.mapM_cons, ha, hl]
        | cons e' es =>
          have : ¬ l.map f = es.map some := by rw [← ih, hl]; simp
          simp [List.mapM_cons, ha, hl, this]
      | some es' =>
        have h := (ih es').mp hl
        cases es with
        | nil => simp [List.mapM_cons, ha, hl]
        | cons e' es =>
          simp [List.mapM_cons, ha, hl, h]
          intro _
          constructor
          · rintro rfl; rfl
          · intro h; exact List.map_injective_iff.mpr (Option.some_injective _) h

/-- A check of the groups of sixteen is a check of each stretch of sixteen entries. -/
theorem all_groupsOf16 (P : List Entry → Bool) : ∀ (n : Nat) (es : List Entry),
    (groupsOf16 es n).all P = true ↔ ∀ g, g < n → P ((es.drop (16 * g)).take 16) = true := by
  intro n
  induction n with
  | zero => intro es; simp [groupsOf16]
  | succ n ih =>
    intro es
    simp only [groupsOf16, List.all_cons, Bool.and_eq_true, ih]
    constructor
    · rintro ⟨h0, h⟩ g hg
      cases g with
      | zero => simpa using h0
      | succ g =>
        have := h g (by omega)
        rwa [List.drop_drop, show 16 + 16 * g = 16 * (g + 1) by ring] at this
    · intro h
      refine ⟨by simpa using h 0 (by omega), fun g hg => ?_⟩
      have := h (g + 1) (by omega)
      rwa [List.drop_drop, show 16 + 16 * g = 16 * (g + 1) by ring]

/-- A word's entry is the one its instruction carries. -/
theorem entryOfWord_eq_some_iff (w : BitVec 48) (e : Entry) :
    entryOfWord w = some e ↔ decode (.s w) = .ok (.round e.fn e.k e.idx e.rot) := by
  have round_entry : ∀ i : Instr, i.entry? = some e ↔ i = .round e.fn e.k e.idx e.rot := by
    intro i
    obtain ⟨fn, k, idx, rot⟩ := e
    cases i <;> cases fn <;> simp [Instr.round, Instr.entry?]
  show (match decodeEntry w with | .ok i => i.entry? | .error _ => none) = some e ↔ decodeEntry w = _
  cases decodeEntry w with
  | ok i => simpa using round_entry i
  | error _ => simp

/-- The base function the check asks for at a ROM address. -/
theorem ofNumber?_scheduleFn {a : Nat} (ha : a < 160) (fn : BaseFn) :
    (BaseFn.ofNumber? (scheduleFn a) == some fn) = true ↔ fn.number = scheduleFn a := by
  have h1 : 1 ≤ scheduleFn a ∧ scheduleFn a ≤ 5 := by unfold scheduleFn; split <;> omega
  generalize scheduleFn a = n at *
  rcases (by omega : n = 1 ∨ n = 2 ∨ n = 3 ∨ n = 4 ∨ n = 5) with
    rfl | rfl | rfl | rfl | rfl <;> cases fn <;> decide

end Sys2Proof.Machine
end

