-- ==== Sys2Proof/Laws/Decode.lean ====
section
/-! SUPPORT. The fields of an encoded schedule entry, and the cases of a base-function number. -/

namespace Sys2Proof

theorem BaseFn.number_lt (fn : BaseFn) : fn.number < 8 := by cases fn <;> decide

/-- A field `F` of `w` bits that stands above `s` bits and below `H`. -/
theorem slice_eq {H F lo s w v : Nat} (hv : v = (H * 2 ^ w + F) * 2 ^ s + lo) (hF : F < 2 ^ w)
    (hlo : lo < 2 ^ s) : v / 2 ^ s % 2 ^ w = F := by
  subst hv
  rw [Nat.mul_comm _ (2 ^ s), Nat.mul_add_div (Nat.two_pow_pos s), Nat.div_eq_of_lt hlo, Nat.add_zero,
    Nat.mul_comm H, Nat.mul_add_mod, Nat.mod_eq_of_lt hF]

theorem BaseFn.code_toNat (fn : BaseFn) : fn.code.toNat = fn.number := by cases fn <;> rfl

theorem toNat_append_eq {m n : Nat} (x : BitVec m) (y : BitVec n) :
    (x ++ y).toNat = x.toNat * 2 ^ n + y.toNat := by
  rw [BitVec.toNat_append, ← Nat.shiftLeft_add_eq_or_of_lt y.isLt, Nat.shiftLeft_eq]

/-- The value of an encoded entry (30_encoding.md R72): nothing is lost in its 48 bits. -/
theorem encodeEntry_toNat (fn : BaseFn) (k : Word) (idx : BitVec 4) (rot : BitVec 5) :
    (encodeEntry fn k idx rot).toNat =
      fn.number * 2 ^ 44 + k.toNat * 2 ^ 12 + idx.toNat * 2 ^ 8 + rot.toNat := by
  rw [encodeEntry]
  simp only [toNat_append_eq, BaseFn.code_toNat]
  norm_num
  ring

theorem entryRsv1_encodeEntry (fn : BaseFn) (k : Word) (idx : BitVec 4) (rot : BitVec 5) :
    entryRsv1 (encodeEntry fn k idx rot) = 0 := by
  have := fn.number_lt
  have := k.isLt
  have := idx.isLt
  have := rot.isLt
  apply BitVec.eq_of_toNat_eq
  rw [entryRsv1, BitVec.extractLsb'_toNat, encodeEntry_toNat, Nat.shiftRight_eq_div_pow]
  exact slice_eq (H := 0) (lo := fn.number * 2 ^ 44 + k.toNat * 2 ^ 12 + idx.toNat * 2 ^ 8 + rot.toNat)
    (by show _ = (_ * 2 ^ _ + 0) * 2 ^ _ + _; omega) (by decide) (by omega)

theorem entryFn_encodeEntry (fn : BaseFn) (k : Word) (idx : BitVec 4) (rot : BitVec 5) :
    (entryFn (encodeEntry fn k idx rot)).toNat = fn.number := by
  have := fn.number_lt
  have := k.isLt
  have := idx.isLt
  have := rot.isLt
  rw [entryFn, BitVec.extractLsb'_toNat, encodeEntry_toNat, Nat.shiftRight_eq_div_pow]
  exact slice_eq (H := 0) (lo := k.toNat * 2 ^ 12 + idx.toNat * 2 ^ 8 + rot.toNat)
    (by omega) (by omega) (by omega)

theorem entryK_encodeEntry (fn : BaseFn) (k : Word) (idx : BitVec 4) (rot : BitVec 5) :
    entryK (encodeEntry fn k idx rot) = k := by
  have := fn.number_lt
  have := k.isLt
  have := idx.isLt
  have := rot.isLt
  apply BitVec.eq_of_toNat_eq
  rw [entryK, BitVec.extractLsb'_toNat, encodeEntry_toNat, Nat.shiftRight_eq_div_pow]
  exact slice_eq (H := fn.number) (lo := idx.toNat * 2 ^ 8 + rot.toNat)
    (by omega) (by omega) (by omega)

theorem entryIdx_encodeEntry (fn : BaseFn) (k : Word) (idx : BitVec 4) (rot : BitVec 5) :
    entryIdx (encodeEntry fn k idx rot) = idx := by
  have := fn.number_lt
  have := k.isLt
  have := idx.isLt
  have := rot.isLt
  apply BitVec.eq_of_toNat_eq
  rw [entryIdx, BitVec.extractLsb'_toNat, encodeEntry_toNat, Nat.shiftRight_eq_div_pow]
  exact slice_eq (H := fn.number * 2 ^ 32 + k.toNat) (lo := rot.toNat)
    (by omega) (by omega) (by omega)

theorem entryRsv0_encodeEntry (fn : BaseFn) (k : Word) (idx : BitVec 4) (rot : BitVec 5) :
    entryRsv0 (encodeEntry fn k idx rot) = 0 := by
  have := fn.number_lt
  have := k.isLt
  have := idx.isLt
  have := rot.isLt
  apply BitVec.eq_of_toNat_eq
  rw [entryRsv0, BitVec.extractLsb'_toNat, encodeEntry_toNat, Nat.shiftRight_eq_div_pow]
  exact slice_eq (H := (fn.number * 2 ^ 32 + k.toNat) * 2 ^ 4 + idx.toNat) (lo := rot.toNat)
    (by show _ = (_ * 2 ^ _ + 0) * 2 ^ _ + _; omega) (by decide) (by omega)

theorem entryRot_encodeEntry (fn : BaseFn) (k : Word) (idx : BitVec 4) (rot : BitVec 5) :
    entryRot (encodeEntry fn k idx rot) = rot := by
  have := fn.number_lt
  have := k.isLt
  have := idx.isLt
  have := rot.isLt
  apply BitVec.eq_of_toNat_eq
  rw [entryRot, BitVec.extractLsb'_toNat, encodeEntry_toNat, Nat.shiftRight_eq_div_pow]
  exact slice_eq (H := fn.number * 2 ^ 39 + k.toNat * 2 ^ 7 + idx.toNat * 2 ^ 3) (lo := 0)
    (by omega) (by omega) (by omega)

theorem BaseFn.ofNumber?_number (fn : BaseFn) : BaseFn.ofNumber? fn.number = some fn := by
  cases fn <;> rfl

theorem BaseFn.number_of_ofNumber? {n : Nat} {fn : BaseFn} (h : BaseFn.ofNumber? n = some fn) :
    fn.number = n := by
  unfold BaseFn.ofNumber? at h
  split at h <;> first | (cases h; rfl) | simp at h

/-- A base-function number names a function exactly when it is in 1..5. -/
theorem BaseFn.ofNumber?_eq_none {n : Nat} : BaseFn.ofNumber? n = none ↔ n = 0 ∨ 6 ≤ n := by
  unfold BaseFn.ofNumber?
  split <;> simp_all
  omega

end Sys2Proof
end

