-- ==== Sys2Proof/Laws/State.lean ====
section
/-! SUPPORT. One lemma for each field under each named update of State. -/

namespace Sys2Proof.Machine.State

/-! ### withQuint -/

@[simp] theorem withQuint_lanes (s : State) (b : Branch) (q : Quint) : (s.withQuint b q).lanes = s.lanes := by cases b <;> rfl
@[simp] theorem withQuint_ROM (s : State) (b : Branch) (q : Quint) : (s.withQuint b q).ROM = s.ROM := by cases b <;> rfl
@[simp] theorem withQuint_IVROM (s : State) (b : Branch) (q : Quint) : (s.withQuint b q).IVROM = s.IVROM := by cases b <;> rfl
@[simp] theorem withQuint_PH (s : State) (b : Branch) (q : Quint) : (s.withQuint b q).PH = s.PH := by cases b <;> rfl
@[simp] theorem withQuint_JL (s : State) (b : Branch) (q : Quint) : (s.withQuint b q).JL = s.JL := by cases b <;> rfl
@[simp] theorem withQuint_JR (s : State) (b : Branch) (q : Quint) : (s.withQuint b q).JR = s.JR := by cases b <;> rfl
@[simp] theorem withQuint_S (s : State) (b : Branch) (q : Quint) : (s.withQuint b q).S = s.S := by cases b <;> rfl
@[simp] theorem withQuint_X (s : State) (b : Branch) (q : Quint) : (s.withQuint b q).X = s.X := by cases b <;> rfl
@[simp] theorem withQuint_IN (s : State) (b : Branch) (q : Quint) : (s.withQuint b q).IN = s.IN := by cases b <;> rfl
@[simp] theorem withQuint_OUT (s : State) (b : Branch) (q : Quint) : (s.withQuint b q).OUT = s.OUT := by cases b <;> rfl
@[simp] theorem withQuint_turns (s : State) (b : Branch) (q : Quint) : (s.withQuint b q).turns = s.turns := by cases b <;> rfl
@[simp] theorem withQuint_draws (s : State) (b : Branch) (q : Quint) : (s.withQuint b q).draws = s.draws := by cases b <;> rfl
@[simp] theorem withQuint_reply (s : State) (b : Branch) (q : Quint) : (s.withQuint b q).reply = s.reply := by cases b <;> rfl
@[simp] theorem withQuint_port (s : State) (b : Branch) (q : Quint) : (s.withQuint b q).port = s.port := by cases b <;> rfl
@[simp] theorem withQuint_n (s : State) (b : Branch) (q : Quint) : (s.withQuint b q).n = s.n := by cases b <;> rfl
@[simp] theorem withQuint_left_L (s : State) (q : Quint) : (s.withQuint .left q).L = q := rfl
@[simp] theorem withQuint_left_R (s : State) (q : Quint) : (s.withQuint .left q).R = s.R := rfl
@[simp] theorem withQuint_right_L (s : State) (q : Quint) : (s.withQuint .right q).L = s.L := rfl
@[simp] theorem withQuint_right_R (s : State) (q : Quint) : (s.withQuint .right q).R = q := rfl
@[simp] theorem withQuint_quint (s : State) (b : Branch) (q : Quint) : (s.withQuint b q).quint b = q := by cases b <;> rfl
@[simp] theorem withQuint_quint_other (s : State) (b : Branch) (q : Quint) : (s.withQuint b q).quint b.other = s.quint b.other := by cases b <;> rfl
@[simp] theorem withQuint_count (s : State) (b c : Branch) (q : Quint) : (s.withQuint b q).count c = s.count c := by cases b <;> cases c <;> rfl

/-! ### withCount -/

@[simp] theorem withCount_lanes (s : State) (b : Branch) (j : Nat) : (s.withCount b j).lanes = s.lanes := by cases b <;> rfl
@[simp] theorem withCount_ROM (s : State) (b : Branch) (j : Nat) : (s.withCount b j).ROM = s.ROM := by cases b <;> rfl
@[simp] theorem withCount_IVROM (s : State) (b : Branch) (j : Nat) : (s.withCount b j).IVROM = s.IVROM := by cases b <;> rfl
@[simp] theorem withCount_PH (s : State) (b : Branch) (j : Nat) : (s.withCount b j).PH = s.PH := by cases b <;> rfl
@[simp] theorem withCount_S (s : State) (b : Branch) (j : Nat) : (s.withCount b j).S = s.S := by cases b <;> rfl
@[simp] theorem withCount_L (s : State) (b : Branch) (j : Nat) : (s.withCount b j).L = s.L := by cases b <;> rfl
@[simp] theorem withCount_R (s : State) (b : Branch) (j : Nat) : (s.withCount b j).R = s.R := by cases b <;> rfl
@[simp] theorem withCount_X (s : State) (b : Branch) (j : Nat) : (s.withCount b j).X = s.X := by cases b <;> rfl
@[simp] theorem withCount_IN (s : State) (b : Branch) (j : Nat) : (s.withCount b j).IN = s.IN := by cases b <;> rfl
@[simp] theorem withCount_OUT (s : State) (b : Branch) (j : Nat) : (s.withCount b j).OUT = s.OUT := by cases b <;> rfl
@[simp] theorem withCount_turns (s : State) (b : Branch) (j : Nat) : (s.withCount b j).turns = s.turns := by cases b <;> rfl
@[simp] theorem withCount_draws (s : State) (b : Branch) (j : Nat) : (s.withCount b j).draws = s.draws := by cases b <;> rfl
@[simp] theorem withCount_reply (s : State) (b : Branch) (j : Nat) : (s.withCount b j).reply = s.reply := by cases b <;> rfl
@[simp] theorem withCount_port (s : State) (b : Branch) (j : Nat) : (s.withCount b j).port = s.port := by cases b <;> rfl
@[simp] theorem withCount_n (s : State) (b : Branch) (j : Nat) : (s.withCount b j).n = s.n := by cases b <;> rfl
@[simp] theorem withCount_left_JL (s : State) (j : Nat) : (s.withCount .left j).JL = j := rfl
@[simp] theorem withCount_left_JR (s : State) (j : Nat) : (s.withCount .left j).JR = s.JR := rfl
@[simp] theorem withCount_right_JL (s : State) (j : Nat) : (s.withCount .right j).JL = s.JL := rfl
@[simp] theorem withCount_right_JR (s : State) (j : Nat) : (s.withCount .right j).JR = j := rfl
@[simp] theorem withCount_count (s : State) (b : Branch) (j : Nat) : (s.withCount b j).count b = j := by cases b <;> rfl
@[simp] theorem withCount_count_other (s : State) (b : Branch) (j : Nat) : (s.withCount b j).count b.other = s.count b.other := by cases b <;> rfl
@[simp] theorem withCount_quint (s : State) (b c : Branch) (j : Nat) : (s.withCount b j).quint c = s.quint c := by cases b <;> cases c <;> rfl

/-! ### withPhase -/

@[simp] theorem withPhase_lanes (s : State) (p : Phase) : (s.withPhase p).lanes = s.lanes := rfl
@[simp] theorem withPhase_ROM (s : State) (p : Phase) : (s.withPhase p).ROM = s.ROM := rfl
@[simp] theorem withPhase_IVROM (s : State) (p : Phase) : (s.withPhase p).IVROM = s.IVROM := rfl
@[simp] theorem withPhase_PH (s : State) (p : Phase) : (s.withPhase p).PH = p := rfl
@[simp] theorem withPhase_JL (s : State) (p : Phase) : (s.withPhase p).JL = s.JL := rfl
@[simp] theorem withPhase_JR (s : State) (p : Phase) : (s.withPhase p).JR = s.JR := rfl
@[simp] theorem withPhase_S (s : State) (p : Phase) : (s.withPhase p).S = s.S := rfl
@[simp] theorem withPhase_L (s : State) (p : Phase) : (s.withPhase p).L = s.L := rfl
@[simp] theorem withPhase_R (s : State) (p : Phase) : (s.withPhase p).R = s.R := rfl
@[simp] theorem withPhase_X (s : State) (p : Phase) : (s.withPhase p).X = s.X := rfl
@[simp] theorem withPhase_IN (s : State) (p : Phase) : (s.withPhase p).IN = s.IN := rfl
@[simp] theorem withPhase_OUT (s : State) (p : Phase) : (s.withPhase p).OUT = s.OUT := rfl
@[simp] theorem withPhase_turns (s : State) (p : Phase) : (s.withPhase p).turns = s.turns := rfl
@[simp] theorem withPhase_draws (s : State) (p : Phase) : (s.withPhase p).draws = s.draws := rfl
@[simp] theorem withPhase_reply (s : State) (p : Phase) : (s.withPhase p).reply = s.reply := rfl
@[simp] theorem withPhase_port (s : State) (p : Phase) : (s.withPhase p).port = s.port := rfl
@[simp] theorem withPhase_n (s : State) (p : Phase) : (s.withPhase p).n = s.n := rfl
@[simp] theorem withPhase_quint (s : State) (p : Phase) (c : Branch) : (s.withPhase p).quint c = s.quint c := by cases c <;> rfl
@[simp] theorem withPhase_count (s : State) (p : Phase) (c : Branch) : (s.withPhase p).count c = s.count c := by cases c <;> rfl

/-! ### withS -/

@[simp] theorem withS_lanes (s : State) (q : Quint) : (s.withS q).lanes = s.lanes := rfl
@[simp] theorem withS_ROM (s : State) (q : Quint) : (s.withS q).ROM = s.ROM := rfl
@[simp] theorem withS_IVROM (s : State) (q : Quint) : (s.withS q).IVROM = s.IVROM := rfl
@[simp] theorem withS_PH (s : State) (q : Quint) : (s.withS q).PH = s.PH := rfl
@[simp] theorem withS_JL (s : State) (q : Quint) : (s.withS q).JL = s.JL := rfl
@[simp] theorem withS_JR (s : State) (q : Quint) : (s.withS q).JR = s.JR := rfl
@[simp] theorem withS_S (s : State) (q : Quint) : (s.withS q).S = q := rfl
@[simp] theorem withS_L (s : State) (q : Quint) : (s.withS q).L = s.L := rfl
@[simp] theorem withS_R (s : State) (q : Quint) : (s.withS q).R = s.R := rfl
@[simp] theorem withS_X (s : State) (q : Quint) : (s.withS q).X = s.X := rfl
@[simp] theorem withS_IN (s : State) (q : Quint) : (s.withS q).IN = s.IN := rfl
@[simp] theorem withS_OUT (s : State) (q : Quint) : (s.withS q).OUT = s.OUT := rfl
@[simp] theorem withS_turns (s : State) (q : Quint) : (s.withS q).turns = s.turns := rfl
@[simp] theorem withS_draws (s : State) (q : Quint) : (s.withS q).draws = s.draws := rfl
@[simp] theorem withS_reply (s : State) (q : Quint) : (s.withS q).reply = s.reply := rfl
@[simp] theorem withS_port (s : State) (q : Quint) : (s.withS q).port = s.port := rfl
@[simp] theorem withS_n (s : State) (q : Quint) : (s.withS q).n = s.n := rfl
@[simp] theorem withS_quint (s : State) (q : Quint) (c : Branch) : (s.withS q).quint c = s.quint c := by cases c <;> rfl
@[simp] theorem withS_count (s : State) (q : Quint) (c : Branch) : (s.withS q).count c = s.count c := by cases c <;> rfl

/-! ### withIN -/

@[simp] theorem withIN_lanes (s : State) (m : Memory) : (s.withIN m).lanes = s.lanes := rfl
@[simp] theorem withIN_ROM (s : State) (m : Memory) : (s.withIN m).ROM = s.ROM := rfl
@[simp] theorem withIN_IVROM (s : State) (m : Memory) : (s.withIN m).IVROM = s.IVROM := rfl
@[simp] theorem withIN_PH (s : State) (m : Memory) : (s.withIN m).PH = s.PH := rfl
@[simp] theorem withIN_JL (s : State) (m : Memory) : (s.withIN m).JL = s.JL := rfl
@[simp] theorem withIN_JR (s : State) (m : Memory) : (s.withIN m).JR = s.JR := rfl
@[simp] theorem withIN_S (s : State) (m : Memory) : (s.withIN m).S = s.S := rfl
@[simp] theorem withIN_L (s : State) (m : Memory) : (s.withIN m).L = s.L := rfl
@[simp] theorem withIN_R (s : State) (m : Memory) : (s.withIN m).R = s.R := rfl
@[simp] theorem withIN_X (s : State) (m : Memory) : (s.withIN m).X = s.X := rfl
@[simp] theorem withIN_IN (s : State) (m : Memory) : (s.withIN m).IN = m := rfl
@[simp] theorem withIN_OUT (s : State) (m : Memory) : (s.withIN m).OUT = s.OUT := rfl
@[simp] theorem withIN_turns (s : State) (m : Memory) : (s.withIN m).turns = s.turns := rfl
@[simp] theorem withIN_draws (s : State) (m : Memory) : (s.withIN m).draws = s.draws := rfl
@[simp] theorem withIN_reply (s : State) (m : Memory) : (s.withIN m).reply = s.reply := rfl
@[simp] theorem withIN_port (s : State) (m : Memory) : (s.withIN m).port = s.port := rfl
@[simp] theorem withIN_n (s : State) (m : Memory) : (s.withIN m).n = s.n := rfl
@[simp] theorem withIN_quint (s : State) (m : Memory) (c : Branch) : (s.withIN m).quint c = s.quint c := by cases c <;> rfl
@[simp] theorem withIN_count (s : State) (m : Memory) (c : Branch) : (s.withIN m).count c = s.count c := by cases c <;> rfl

/-! ### withOUT -/

@[simp] theorem withOUT_lanes (s : State) (m : Memory) : (s.withOUT m).lanes = s.lanes := rfl
@[simp] theorem withOUT_ROM (s : State) (m : Memory) : (s.withOUT m).ROM = s.ROM := rfl
@[simp] theorem withOUT_IVROM (s : State) (m : Memory) : (s.withOUT m).IVROM = s.IVROM := rfl
@[simp] theorem withOUT_PH (s : State) (m : Memory) : (s.withOUT m).PH = s.PH := rfl
@[simp] theorem withOUT_JL (s : State) (m : Memory) : (s.withOUT m).JL = s.JL := rfl
@[simp] theorem withOUT_JR (s : State) (m : Memory) : (s.withOUT m).JR = s.JR := rfl
@[simp] theorem withOUT_S (s : State) (m : Memory) : (s.withOUT m).S = s.S := rfl
@[simp] theorem withOUT_L (s : State) (m : Memory) : (s.withOUT m).L = s.L := rfl
@[simp] theorem withOUT_R (s : State) (m : Memory) : (s.withOUT m).R = s.R := rfl
@[simp] theorem withOUT_X (s : State) (m : Memory) : (s.withOUT m).X = s.X := rfl
@[simp] theorem withOUT_IN (s : State) (m : Memory) : (s.withOUT m).IN = s.IN := rfl
@[simp] theorem withOUT_OUT (s : State) (m : Memory) : (s.withOUT m).OUT = m := rfl
@[simp] theorem withOUT_turns (s : State) (m : Memory) : (s.withOUT m).turns = s.turns := rfl
@[simp] theorem withOUT_draws (s : State) (m : Memory) : (s.withOUT m).draws = s.draws := rfl
@[simp] theorem withOUT_reply (s : State) (m : Memory) : (s.withOUT m).reply = s.reply := rfl
@[simp] theorem withOUT_port (s : State) (m : Memory) : (s.withOUT m).port = s.port := rfl
@[simp] theorem withOUT_n (s : State) (m : Memory) : (s.withOUT m).n = s.n := rfl
@[simp] theorem withOUT_quint (s : State) (m : Memory) (c : Branch) : (s.withOUT m).quint c = s.quint c := by cases c <;> rfl
@[simp] theorem withOUT_count (s : State) (m : Memory) (c : Branch) : (s.withOUT m).count c = s.count c := by cases c <;> rfl

/-! ### withReply -/

@[simp] theorem withReply_lanes (s : State) (r : Reply) : (s.withReply r).lanes = s.lanes := rfl
@[simp] theorem withReply_ROM (s : State) (r : Reply) : (s.withReply r).ROM = s.ROM := rfl
@[simp] theorem withReply_IVROM (s : State) (r : Reply) : (s.withReply r).IVROM = s.IVROM := rfl
@[simp] theorem withReply_PH (s : State) (r : Reply) : (s.withReply r).PH = s.PH := rfl
@[simp] theorem withReply_JL (s : State) (r : Reply) : (s.withReply r).JL = s.JL := rfl
@[simp] theorem withReply_JR (s : State) (r : Reply) : (s.withReply r).JR = s.JR := rfl
@[simp] theorem withReply_S (s : State) (r : Reply) : (s.withReply r).S = s.S := rfl
@[simp] theorem withReply_L (s : State) (r : Reply) : (s.withReply r).L = s.L := rfl
@[simp] theorem withReply_R (s : State) (r : Reply) : (s.withReply r).R = s.R := rfl
@[simp] theorem withReply_X (s : State) (r : Reply) : (s.withReply r).X = s.X := rfl
@[simp] theorem withReply_IN (s : State) (r : Reply) : (s.withReply r).IN = s.IN := rfl
@[simp] theorem withReply_OUT (s : State) (r : Reply) : (s.withReply r).OUT = s.OUT := rfl
@[simp] theorem withReply_turns (s : State) (r : Reply) : (s.withReply r).turns = s.turns := rfl
@[simp] theorem withReply_draws (s : State) (r : Reply) : (s.withReply r).draws = s.draws := rfl
@[simp] theorem withReply_reply (s : State) (r : Reply) : (s.withReply r).reply = r := rfl
@[simp] theorem withReply_port (s : State) (r : Reply) : (s.withReply r).port = s.port := rfl
@[simp] theorem withReply_n (s : State) (r : Reply) : (s.withReply r).n = s.n := rfl
@[simp] theorem withReply_quint (s : State) (r : Reply) (c : Branch) : (s.withReply r).quint c = s.quint c := by cases c <;> rfl
@[simp] theorem withReply_count (s : State) (r : Reply) (c : Branch) : (s.withReply r).count c = s.count c := by cases c <;> rfl

/-! ### drew -/

@[simp] theorem drew_lanes (s : State) (k : Nat) : (s.drew k).lanes = s.lanes := rfl
@[simp] theorem drew_ROM (s : State) (k : Nat) : (s.drew k).ROM = s.ROM := rfl
@[simp] theorem drew_IVROM (s : State) (k : Nat) : (s.drew k).IVROM = s.IVROM := rfl
@[simp] theorem drew_PH (s : State) (k : Nat) : (s.drew k).PH = s.PH := rfl
@[simp] theorem drew_JL (s : State) (k : Nat) : (s.drew k).JL = s.JL := rfl
@[simp] theorem drew_JR (s : State) (k : Nat) : (s.drew k).JR = s.JR := rfl
@[simp] theorem drew_S (s : State) (k : Nat) : (s.drew k).S = s.S := rfl
@[simp] theorem drew_L (s : State) (k : Nat) : (s.drew k).L = s.L := rfl
@[simp] theorem drew_R (s : State) (k : Nat) : (s.drew k).R = s.R := rfl
@[simp] theorem drew_X (s : State) (k : Nat) : (s.drew k).X = s.X := rfl
@[simp] theorem drew_IN (s : State) (k : Nat) : (s.drew k).IN = s.IN := rfl
@[simp] theorem drew_OUT (s : State) (k : Nat) : (s.drew k).OUT = s.OUT := rfl
@[simp] theorem drew_turns (s : State) (k : Nat) : (s.drew k).turns = s.turns := rfl
@[simp] theorem drew_draws (s : State) (k : Nat) : (s.drew k).draws = s.draws + k := rfl
@[simp] theorem drew_reply (s : State) (k : Nat) : (s.drew k).reply = s.reply := rfl
@[simp] theorem drew_port (s : State) (k : Nat) : (s.drew k).port = s.port := rfl
@[simp] theorem drew_n (s : State) (k : Nat) : (s.drew k).n = s.n := rfl
@[simp] theorem drew_quint (s : State) (k : Nat) (c : Branch) : (s.drew k).quint c = s.quint c := by cases c <;> rfl
@[simp] theorem drew_count (s : State) (k : Nat) (c : Branch) : (s.drew k).count c = s.count c := by cases c <;> rfl

/-! ### withResult -/

@[simp] theorem withResult_lanes (s : State) (v : LaneVec) : (s.withResult v).lanes = s.lanes := rfl
@[simp] theorem withResult_ROM (s : State) (v : LaneVec) : (s.withResult v).ROM = s.ROM := rfl
@[simp] theorem withResult_IVROM (s : State) (v : LaneVec) : (s.withResult v).IVROM = s.IVROM := rfl
@[simp] theorem withResult_PH (s : State) (v : LaneVec) : (s.withResult v).PH = s.PH := rfl
@[simp] theorem withResult_JL (s : State) (v : LaneVec) : (s.withResult v).JL = s.JL := rfl
@[simp] theorem withResult_JR (s : State) (v : LaneVec) : (s.withResult v).JR = s.JR := rfl
@[simp] theorem withResult_S (s : State) (v : LaneVec) : (s.withResult v).S = s.S := rfl
@[simp] theorem withResult_L (s : State) (v : LaneVec) : (s.withResult v).L = s.L := rfl
@[simp] theorem withResult_R (s : State) (v : LaneVec) : (s.withResult v).R = s.R := rfl
@[simp] theorem withResult_X (s : State) (v : LaneVec) : (s.withResult v).X = s.X := rfl
@[simp] theorem withResult_IN (s : State) (v : LaneVec) : (s.withResult v).IN = s.IN := rfl
@[simp] theorem withResult_OUT (s : State) (v : LaneVec) : (s.withResult v).OUT = s.OUT := rfl
@[simp] theorem withResult_turns (s : State) (v : LaneVec) : (s.withResult v).turns = s.turns := rfl
@[simp] theorem withResult_draws (s : State) (v : LaneVec) : (s.withResult v).draws = s.draws := rfl
@[simp] theorem withResult_reply (s : State) (v : LaneVec) : (s.withResult v).reply = s.reply := rfl
@[simp] theorem withResult_port (s : State) (v : LaneVec) : (s.withResult v).port = { s.port with result := v } := rfl
@[simp] theorem withResult_n (s : State) (v : LaneVec) : (s.withResult v).n = s.n := rfl
@[simp] theorem withResult_quint (s : State) (v : LaneVec) (c : Branch) : (s.withResult v).quint c = s.quint c := by cases c <;> rfl
@[simp] theorem withResult_count (s : State) (v : LaneVec) (c : Branch) : (s.withResult v).count c = s.count c := by cases c <;> rfl

/-! ### endTurn -/

@[simp] theorem endTurn_lanes (s : State) : (s.endTurn).lanes = s.lanes := rfl
@[simp] theorem endTurn_ROM (s : State) : (s.endTurn).ROM = s.ROM := rfl
@[simp] theorem endTurn_IVROM (s : State) : (s.endTurn).IVROM = s.IVROM := rfl
@[simp] theorem endTurn_PH (s : State) : (s.endTurn).PH = s.PH := rfl
@[simp] theorem endTurn_JL (s : State) : (s.endTurn).JL = s.JL := rfl
@[simp] theorem endTurn_JR (s : State) : (s.endTurn).JR = s.JR := rfl
@[simp] theorem endTurn_S (s : State) : (s.endTurn).S = s.S := rfl
@[simp] theorem endTurn_L (s : State) : (s.endTurn).L = s.L := rfl
@[simp] theorem endTurn_R (s : State) : (s.endTurn).R = s.R := rfl
@[simp] theorem endTurn_X (s : State) : (s.endTurn).X = s.X := rfl
@[simp] theorem endTurn_IN (s : State) : (s.endTurn).IN = s.IN := rfl
@[simp] theorem endTurn_OUT (s : State) : (s.endTurn).OUT = s.OUT := rfl
@[simp] theorem endTurn_turns (s : State) : (s.endTurn).turns = s.turns.tail := rfl
@[simp] theorem endTurn_draws (s : State) : (s.endTurn).draws = s.draws := rfl
@[simp] theorem endTurn_reply (s : State) : (s.endTurn).reply = s.reply := rfl
@[simp] theorem endTurn_port (s : State) : (s.endTurn).port = s.port := rfl
@[simp] theorem endTurn_n (s : State) : (s.endTurn).n = s.n := rfl
@[simp] theorem endTurn_quint (s : State) (c : Branch) : (s.endTurn).quint c = s.quint c := by cases c <;> rfl
@[simp] theorem endTurn_count (s : State) (c : Branch) : (s.endTurn).count c = s.count c := by cases c <;> rfl

end Sys2Proof.Machine.State
end

