-- ==== Sys2Proof/Laws/Ops.lean ====
section
/-! SUPPORT. What the shared operations do: lane vectors lane by lane, memories word by word. -/

namespace Sys2Proof.Machine

/-! ### Lane vectors -/

@[simp] theorem length_perLane (n : Nat) (g : Nat → Word) : (perLane n g).length = n := by
  simp [perLane]

theorem lane_perLane {n i : Nat} (g : Nat → Word) (h : i < n) : lane (perLane n g) i = g i := by
  simp [lane, perLane, h]

@[simp] theorem length_lanewise1 (n : Nat) (g : Word → Word) (x : LaneVec) :
    (lanewise1 n g x).length = n := length_perLane _ _

@[simp] theorem length_lanewise2 (n : Nat) (g : Word → Word → Word) (x y : LaneVec) :
    (lanewise2 n g x y).length = n := length_perLane _ _

theorem lane_lanewise1 {n i : Nat} (g : Word → Word) (x : LaneVec) (h : i < n) :
    lane (lanewise1 n g x) i = g (lane x i) := lane_perLane _ h

theorem lane_lanewise2 {n i : Nat} (g : Word → Word → Word) (x y : LaneVec) (h : i < n) :
    lane (lanewise2 n g x y) i = g (lane x i) (lane y i) := lane_perLane _ h

@[simp] theorem length_broadcast (n : Nat) (c : Word) : (broadcast n c).length = n := length_perLane _ _
@[simp] theorem length_loadRows (n row : Nat) (m : Memory) (j d : Nat) :
    (loadRows n row m j d).length = n := length_perLane _ _
@[simp] theorem length_andV (n : Nat) (x y : LaneVec) : (andV n x y).length = n := length_perLane _ _
@[simp] theorem length_orV (n : Nat) (x y : LaneVec) : (orV n x y).length = n := length_perLane _ _
@[simp] theorem length_xorV (n : Nat) (x y : LaneVec) : (xorV n x y).length = n := length_perLane _ _
@[simp] theorem length_notV (n : Nat) (x : LaneVec) : (notV n x).length = n := length_perLane _ _
@[simp] theorem length_addV (n : Nat) (x y : LaneVec) : (addV n x y).length = n := length_perLane _ _
@[simp] theorem length_rotlV (n : Nat) (x : LaneVec) (r : BitVec 5) : (rotlV n x r).length = n := length_perLane _ _
@[simp] theorem length_byteswapV (n : Nat) (x : LaneVec) : (byteswapV n x).length = n := length_perLane _ _
@[simp] theorem length_unspecifiedVec (n d : Nat) : (unspecifiedVec n d).length = n := length_perLane _ _

theorem lane_broadcast {n i : Nat} (c : Word) (h : i < n) : lane (broadcast n c) i = c := lane_perLane _ h
theorem lane_andV {n i : Nat} (x y : LaneVec) (h : i < n) :
    lane (andV n x y) i = lane x i &&& lane y i := lane_lanewise2 _ _ _ h
theorem lane_orV {n i : Nat} (x y : LaneVec) (h : i < n) :
    lane (orV n x y) i = lane x i ||| lane y i := lane_lanewise2 _ _ _ h
theorem lane_xorV {n i : Nat} (x y : LaneVec) (h : i < n) :
    lane (xorV n x y) i = lane x i ^^^ lane y i := lane_lanewise2 _ _ _ h
theorem lane_notV {n i : Nat} (x : LaneVec) (h : i < n) :
    lane (notV n x) i = not32 (lane x i) := lane_lanewise1 _ _ h
theorem lane_addV {n i : Nat} (x y : LaneVec) (h : i < n) :
    lane (addV n x y) i = add32 (lane x i) (lane y i) := lane_lanewise2 _ _ _ h
theorem lane_rotlV {n i : Nat} (x : LaneVec) (r : BitVec 5) (h : i < n) :
    lane (rotlV n x r) i = rotl32 (lane x i) r := lane_lanewise1 _ _ h
theorem lane_byteswapV {n i : Nat} (x : LaneVec) (h : i < n) :
    lane (byteswapV n x) i = bswap32 (lane x i) := lane_lanewise1 _ _ h
theorem lane_loadRows {n i : Nat} (row : Nat) (m : Memory) (j d : Nat) (h : i < n) :
    lane (loadRows n row m j d) i = readWord m (effectiveAddress row i j) (d + i) := lane_perLane _ h

/-! ### Memories -/

/-- A read after a write: the written word at its address, every other address as before. -/
theorem Memory.word?_put (m : Memory) (a b : Nat) (v : Word) :
    (m.put a v).word? b = if b = a then some v else m.word? b := by
  induction m with
  | nil => simp [Memory.put, Memory.word?]
  | cons c m ih =>
    obtain ⟨d, w⟩ := c
    simp only [Memory.put]
    split
    · by_cases hb : b = a <;> simp [Memory.word?, hb]
    · split
      · by_cases hb : b = a <;> simp_all [Memory.word?]
      · simp only [Memory.word?, ih]
        by_cases hb : b = d
        · have : b ≠ a := by omega
          simp [hb, show d ≠ a by omega]
        · simp [hb]

theorem Memory.risesFrom_put {m : Memory} {lo a : Nat} {v : Word} (h : m.risesFrom lo = true)
    (ha : lo ≤ a) : (m.put a v).risesFrom lo = true := by
  induction m generalizing lo with
  | nil => simp [Memory.put, Memory.risesFrom, ha]
  | cons c m ih =>
    obtain ⟨d, w⟩ := c
    simp only [Memory.risesFrom, Bool.and_eq_true, decide_eq_true_eq] at h
    simp only [Memory.put]
    split
    · simp only [Memory.risesFrom, Bool.and_eq_true, decide_eq_true_eq]
      exact ⟨ha, by omega, h.2⟩
    · split
      · subst a
        simp only [Memory.risesFrom, Bool.and_eq_true, decide_eq_true_eq]
        exact h
      · simp only [Memory.risesFrom, Bool.and_eq_true, decide_eq_true_eq]
        exact ⟨h.1, ih h.2 (by omega)⟩

/-- A write keeps the canonical form. -/
theorem Memory.wf_put {m : Memory} (a : Nat) (v : Word) (h : m.wf = true) : (m.put a v).wf = true :=
  Memory.risesFrom_put h (Nat.zero_le _)

/-- A write inside the range keeps a buffer good. -/
theorem Memory.Good.put {size : Nat} {m : Memory} (h : m.Good size) {a : Nat} (v : Word) (ha : a < size) :
    (m.put a v).Good size where
  wf := Memory.wf_put a v h.wf
  inRange b w hb := by
    rw [Memory.word?_put] at hb
    split at hb
    · subst b; exact ha
    · exact h.inRange b w hb

/-- A word that reads as written is listed. -/
theorem Memory.mem_of_word? {m : Memory} {a : Nat} {w : Word} (h : m.word? a = some w) : (a, w) ∈ m := by
  induction m with
  | nil => simp [Memory.word?] at h
  | cons c m ih =>
    obtain ⟨d, u⟩ := c
    simp only [Memory.word?] at h
    split at h
    · rename_i e
      cases h
      subst e
      exact List.mem_cons_self
    · exact List.mem_cons_of_mem _ (ih h)

theorem Memory.Good.nil (size : Nat) : Memory.Good size [] where
  wf := rfl
  inRange := by simp [Memory.word?]

/-- A listed address of a memory that rises from `lo` is at least `lo`. -/
theorem Memory.le_of_word? {m : Memory} {lo a : Nat} {w : Word} (h : m.risesFrom lo = true)
    (ha : m.word? a = some w) : lo ≤ a := by
  induction m generalizing lo with
  | nil => simp [Memory.word?] at ha
  | cons c m ih =>
    obtain ⟨d, u⟩ := c
    simp only [Memory.risesFrom, Bool.and_eq_true, decide_eq_true_eq] at h
    simp only [Memory.word?] at ha
    split at ha
    · omega
    · have := ih h.2 ha; omega

theorem Memory.ext_risesFrom {m m' : Memory} {lo : Nat} (h : m.risesFrom lo = true) (h' : m'.risesFrom lo = true)
    (e : ∀ a, m.word? a = m'.word? a) : m = m' := by
  induction m generalizing m' lo with
  | nil =>
    cases m' with
    | nil => rfl
    | cons c m' => have := e c.1; simp [Memory.word?] at this
  | cons c m ih =>
    obtain ⟨d, u⟩ := c
    simp only [Memory.risesFrom, Bool.and_eq_true, decide_eq_true_eq] at h
    cases m' with
    | nil => have := e d; simp [Memory.word?] at this
    | cons c' m' =>
      obtain ⟨d', u'⟩ := c'
      simp only [Memory.risesFrom, Bool.and_eq_true, decide_eq_true_eq] at h'
      have hd : d = d' := by
        have h1 := e d
        have h2 := e d'
        simp only [Memory.word?, if_true] at h1 h2
        by_contra hne
        rw [if_neg hne] at h1
        rw [if_neg (Ne.symm hne)] at h2
        have := Memory.le_of_word? h'.2 h1.symm
        have := Memory.le_of_word? h.2 h2
        omega
      subst hd
      have hu : u = u' := by have := e d; simpa [Memory.word?] using this
      subst hu
      congr 1
      refine ih h.2 h'.2 fun a => ?_
      have := e a
      simp only [Memory.word?] at this
      by_cases ha : a = d
      · subst ha
        have none_of : ∀ {k : Memory}, k.risesFrom (a + 1) = true → k.word? a = none := by
          intro k hk
          cases hw : k.word? a with
          | none => rfl
          | some w => have := Memory.le_of_word? hk hw; omega
        rw [none_of h.2, none_of h'.2]
      · simpa [ha] using this

/-- Two canonical memories that read the same are the same data. -/
theorem Memory.ext {m m' : Memory} (h : m.wf = true) (h' : m'.wf = true)
    (e : ∀ a, m.word? a = m'.word? a) : m = m' := Memory.ext_risesFrom h h' e

/-- `store_rows` word by word: lane `i` at its address, every other address as before. -/
theorem word?_storeRows (n row j : Nat) (m : Memory) (v : LaneVec) (hj : j < row) (a : Nat) :
    (storeRows n row m j v).word? a =
      if a % row = j ∧ a / row < n then some (lane v (a / row)) else m.word? a := by
  induction n with
  | zero => simp [storeRows]
  | succ n ih =>
    have hs : storeRows (n + 1) row m j v =
        (storeRows n row m j v).put (effectiveAddress row n j) (lane v n) := by
      simp [storeRows, List.range_succ]
    have hrow : 0 < row := by omega
    rw [hs, Memory.word?_put, ih]
    by_cases ha : a = effectiveAddress row n j
    · have h1 : a % row = j := by subst ha; simp [effectiveAddress, Nat.mod_eq_of_lt hj]
      have h2 : a / row = n := by
        subst ha; simp [effectiveAddress, Nat.mul_add_div hrow, Nat.div_eq_of_lt hj]
      simp [ha, effectiveAddress, Nat.mul_add_div hrow, Nat.div_eq_of_lt hj, Nat.mod_eq_of_lt hj]
    · have : a % row = j → a / row ≠ n := by
        intro h1 h2
        apply ha
        rw [effectiveAddress, ← h1, ← h2, Nat.mul_comm]
        exact (Nat.div_add_mod' a row).symm
      rw [if_neg ha]
      by_cases h1 : a % row = j
      · have h3 := this h1
        by_cases h2 : a / row < n
        · simp [h1, h2, show a / row < n + 1 by omega]
        · simp [h1, h2, show ¬ a / row < n + 1 by omega]
      · simp [h1]

theorem storeRows_good {n row j : Nat} {m : Memory} (v : LaneVec) (h : m.Good (row * n)) (hj : j < row) :
    (storeRows n row m j v).Good (row * n) := by
  have key : ∀ k, k ≤ n → (storeRows k row m j v).Good (row * n) := by
    intro k
    induction k with
    | zero => intro _; simpa [storeRows] using h
    | succ k ih =>
      intro hk
      have hs : storeRows (k + 1) row m j v =
          (storeRows k row m j v).put (effectiveAddress row k j) (lane v k) := by
        simp [storeRows, List.range_succ]
      rw [hs]
      refine (ih (by omega)).put _ ?_
      have : row * (k + 1) ≤ row * n := Nat.mul_le_mul_left _ hk
      simp only [effectiveAddress]
      rw [Nat.mul_add] at this
      omega
  exact key n (Nat.le_refl n)

/-! ### Outcomes -/

/-- The step's `afterNext` answers a next state exactly when the action does. -/
theorem afterNext_eq_next {f : State → State} {o : Host.Outcome State Fault Refusal} {t : State} :
    afterNext f o = .next t ↔ ∃ u, o = .next u ∧ t = f u := by
  cases o with
  | next u => simp [afterNext, eq_comm]
  | fault r => simp [afterNext]
  | refused r => simp [afterNext]

end Sys2Proof.Machine
end

