-- ==== Sys2Proof/Laws/Rounds.lean ====
section
/-! SUPPORT. The round primitive and the finalizer lane by lane: each lane is the word-level function. -/

namespace Sys2Proof.Machine

theorem rotl32_eq_rotateLeft (x : Word) (n : BitVec 5) : rotl32 x n = x.rotateLeft n.toNat := by
  have := n.isLt
  rw [rotl32, BitVec.rotateLeft_def, Nat.mod_eq_of_lt (by omega)]

theorem lane_selectFn {n i : Nat} (fn : BaseFn) (b c d : LaneVec) (h : i < n) :
    lane (selectFn n fn b c d) i = wordFn fn (lane b i) (lane c i) (lane d i) := by
  cases fn <;>
    simp [selectFn, fnF1, fnF2, fnF3, fnF4, fnF5, wordFn, lane_andV, lane_orV, lane_xorV, lane_notV, h, not32]

/-- The round primitive in lane `i` is the word-level round of lane `i`. -/
theorem laneAt_roundPrimitive {n i : Nat} (fn : BaseFn) (k : Word) (x : LaneVec) (rot : BitVec 5) (q : Quint)
    (h : i < n) :
    (roundPrimitive n fn k x rot q).laneAt i = wordRound fn k (lane x i) rot.toNat (q.laneAt i) := by
  simp [roundPrimitive, Quint.laneAt, wordRound, lane_addV, lane_rotlV, lane_broadcast, lane_selectFn, h,
    add32, rotl32_eq_rotateLeft]

theorem sized_roundPrimitive {n : Nat} (fn : BaseFn) (k : Word) (x : LaneVec) (rot : BitVec 5) {q : Quint}
    (h : q.Sized n) : (roundPrimitive n fn k x rot q).Sized n :=
  ⟨h.e, length_addV _ _ _, h.b, length_rotlV _ _ _, h.d⟩

theorem sized_combine (n : Nat) (S L R : Quint) : (combine n S L R).Sized n :=
  ⟨length_addV _ _ _, length_addV _ _ _, length_addV _ _ _, length_addV _ _ _, length_addV _ _ _⟩

theorem sized_ivQuint (s : State) : (ivQuint s).Sized s.n :=
  ⟨length_broadcast _ _, length_broadcast _ _, length_broadcast _ _, length_broadcast _ _, length_broadcast _ _⟩

theorem sized_unspecifiedQuint (n d : Nat) : (unspecifiedQuint n d).Sized n :=
  ⟨length_unspecifiedVec _ _, length_unspecifiedVec _ _, length_unspecifiedVec _ _, length_unspecifiedVec _ _,
    length_unspecifiedVec _ _⟩

/-- Every word of `OUT` after FINAL's five stores: word `a` is lane `a / 5` of the swapped word `a % 5`. -/
theorem word?_storeDigest (n : Nat) (S : Quint) (m : Memory) {a : Nat} (ha : a < 5 * n) :
    (storeDigest n S m).word? a = some (bswap32 ((S.laneAt (a / 5)).get (a % 5))) := by
  have h5 : a / 5 < n := by omega
  have hm : a % 5 < 5 := Nat.mod_lt _ (by decide)
  simp only [storeDigest]
  rw [word?_storeRows _ _ _ _ _ (by decide), word?_storeRows _ _ _ _ _ (by decide),
    word?_storeRows _ _ _ _ _ (by decide), word?_storeRows _ _ _ _ _ (by decide),
    word?_storeRows _ _ _ _ _ (by decide)]
  rcases (by omega : a % 5 = 0 ∨ a % 5 = 1 ∨ a % 5 = 2 ∨ a % 5 = 3 ∨ a % 5 = 4) with e | e | e | e | e <;>
    simp [e, h5, lane_byteswapV, WordQuint.get, Quint.laneAt]

/-- FINAL's stores touch no address from `5 * n` on. -/
theorem word?_storeDigest_outside (n : Nat) (S : Quint) (m : Memory) {a : Nat} (ha : 5 * n ≤ a) :
    (storeDigest n S m).word? a = m.word? a := by
  have h5 : ¬ a / 5 < n := by omega
  simp only [storeDigest]
  rw [word?_storeRows _ _ _ _ _ (by decide), word?_storeRows _ _ _ _ _ (by decide),
    word?_storeRows _ _ _ _ _ (by decide), word?_storeRows _ _ _ _ _ (by decide),
    word?_storeRows _ _ _ _ _ (by decide)]
  simp [h5]

theorem storeDigest_good {n : Nat} (S : Quint) {m : Memory} (h : m.Good (5 * n)) :
    (storeDigest n S m).Good (5 * n) :=
  storeRows_good _ (storeRows_good _ (storeRows_good _ (storeRows_good _ (storeRows_good _ h (by decide))
    (by decide)) (by decide)) (by decide)) (by decide)

end Sys2Proof.Machine
end

