-- ==== Sys2Proof/Laws/Step.lean ====
section
/-! SUPPORT. What a step, an action and an instruction can do, said once. -/

namespace Sys2Proof.Machine

/-! ### Which ROUND step is next -/

theorem roundEnabled_iff {s : State} {b : Branch} :
    s.roundEnabled b = true ↔ s.inCall = true ∧ s.count b < 80 := by
  simp [State.roundEnabled]

/-- The branch the engine takes has its ROUND step enabled. -/
theorem enabled_of_nextBranch {s : State} {b : Branch} (h : s.nextBranch = some b) :
    s.inCall = true ∧ s.count b < 80 := by
  rw [← roundEnabled_iff]
  unfold State.nextBranch at h
  dsimp only at h
  split at h
  · cases h; assumption
  · split at h
    · cases h; assumption
    · cases h

/-- No branch is taken exactly when neither has its ROUND step enabled. -/
theorem nextBranch_eq_none_iff {s : State} :
    s.nextBranch = none ↔ s.roundEnabled .left = false ∧ s.roundEnabled .right = false := by
  unfold State.nextBranch
  cases s.preference.getD s.defaultBranch <;> cases hl : s.roundEnabled .left <;>
    cases hr : s.roundEnabled .right <;> simp [Branch.other, hl, hr]

/-- The preferred branch is taken when it is enabled. -/
theorem nextBranch_of_preference {s : State} {b : Branch} (hp : s.preference = some b)
    (h : s.roundEnabled b = true) : s.nextBranch = some b := by
  simp [State.nextBranch, hp, h]

/-! ### Instructions -/

/-- The fields of the state after a ROUND step of a branch. -/
theorem roundOn_left (fn : BaseFn) (k : Word) (idx : BitVec 4) (rot : BitVec 5) (s : State) :
    roundOn .left fn k idx rot s =
      { s with L := roundPrimitive s.n fn k (s.message idx) rot s.L, JL := s.JL + 1, PH := .round } := rfl

theorem roundOn_right (fn : BaseFn) (k : Word) (idx : BitVec 4) (rot : BitVec 5) (s : State) :
    roundOn .right fn k idx rot s =
      { s with R := roundPrimitive s.n fn k (s.message idx) rot s.R, JR := s.JR + 1, PH := .round } := rfl

theorem exec_round (fn : BaseFn) (k : Word) (idx : BitVec 4) (rot : BitVec 5) (s : State) :
    exec (.round fn k idx rot) s = roundStep fn k idx rot s := by
  cases fn <;> rfl

/-- What an instruction can do when it answers a next state: leave a result in the port, store to
`OUT`, or make the ROUND step of the branch the engine takes next. -/
theorem exec_cases {i : Instr} {s t : State} (h : exec i s = .next t) :
    (∃ d v, v.length = s.n ∧ t = (s.drew d).withResult v) ∨
    t = s.withOUT (storeRows s.n 5 s.OUT s.port.outIdx.val s.port.x) ∨
    (∃ b fn k idx rot, i = .round fn k idx rot ∧ s.nextBranch = some b ∧ t = roundOn b fn k idx rot s) := by
  have port : ∀ {v : LaneVec}, v.length = s.n → resultIs v s = .next t →
      ∃ d v, v.length = s.n ∧ t = (s.drew d).withResult v := by
    intro v hv hn
    refine ⟨0, v, hv, ?_⟩
    simpa [resultIs, State.drew] using hn.symm
  have rounds : ∀ {fn k idx rot}, roundStep fn k idx rot s = .next t →
      ∃ b, s.nextBranch = some b ∧ t = roundOn b fn k idx rot s := by
    intro fn k idx rot hr
    unfold roundStep at hr
    split at hr
    · rename_i b hb
      exact ⟨b, hb, by simpa using hr.symm⟩
    · cases hr
  cases i with
  | broadcast => exact .inl (port (length_broadcast _ _) h)
  | loadRows =>
    refine .inl ⟨s.n, _, length_loadRows s.n 16 s.IN s.port.inIdx.val s.draws, ?_⟩
    simpa [exec, execLoadRows, resultIs] using h.symm
  | storeRows => exact .inr (.inl (by simpa [exec, execStoreRows] using h.symm))
  | and => exact .inl (port (length_andV _ _ _) h)
  | or => exact .inl (port (length_orV _ _ _) h)
  | xor => exact .inl (port (length_xorV _ _ _) h)
  | not => exact .inl (port (length_notV _ _) h)
  | add32 => exact .inl (port (length_addV _ _ _) h)
  | rotl => exact .inl (port (length_rotlV _ _ _) h)
  | byteswap => exact .inl (port (length_byteswapV _ _) h)
  | f1 => exact .inl (port (length_xorV _ _ _) h)
  | f2 => exact .inl (port (length_orV _ _ _) h)
  | f3 => exact .inl (port (length_xorV _ _ _) h)
  | f4 => exact .inl (port (length_orV _ _ _) h)
  | f5 => exact .inl (port (length_xorV _ _ _) h)
  | roundF1 k idx rot => obtain ⟨b, hb, ht⟩ := rounds h; exact .inr (.inr ⟨b, .f1, k, idx, rot, rfl, hb, ht⟩)
  | roundF2 k idx rot => obtain ⟨b, hb, ht⟩ := rounds h; exact .inr (.inr ⟨b, .f2, k, idx, rot, rfl, hb, ht⟩)
  | roundF3 k idx rot => obtain ⟨b, hb, ht⟩ := rounds h; exact .inr (.inr ⟨b, .f3, k, idx, rot, rfl, hb, ht⟩)
  | roundF4 k idx rot => obtain ⟨b, hb, ht⟩ := rounds h; exact .inr (.inr ⟨b, .f4, k, idx, rot, rfl, hb, ht⟩)
  | roundF5 k idx rot => obtain ⟨b, hb, ht⟩ := rounds h; exact .inr (.inr ⟨b, .f5, k, idx, rot, rfl, hb, ht⟩)

/-! ### Host actions -/

/-- What a host action can do when it is legal (10_state.md table T-10.2). -/
theorem hostStep_cases {a : HostAction} {s t : State} (h : hostStep a s = .next t) :
    (∃ i j w, a = .writeIn i j w ∧ s.inCall = false ∧ i < s.n ∧ j < 16 ∧
      t = s.withIN (s.IN.put (effectiveAddress 16 i j) w)) ∨
    (a = .start ∧ s.inCall = false ∧ t = start s) ∨
    (a = .readStatus ∧ t = s.withReply (.status (statusCode s))) ∨
    (∃ i j, a = .readOut i j ∧ s.PH = .finalized ∧ i < s.n ∧ j < 5 ∧
      t = (s.withReply (.word (readWord s.OUT (effectiveAddress 5 i j) s.draws))).drew 1) := by
  cases a with
  | writeIn i j w =>
    left
    simp only [hostStep, hostWriteIn] at h
    split at h
    · cases h
    · split at h
      · rename_i hc hw
        simp only [HostAction.wf, Bool.and_eq_true, decide_eq_true_eq] at hw
        exact ⟨i, j, w, rfl, by simpa using hc, hw.1, hw.2, by simpa using h.symm⟩
      · cases h
  | start =>
    right; left
    simp only [hostStep, hostStart] at h
    split at h
    · cases h
    · rename_i hc
      exact ⟨rfl, by simpa using hc, by simpa using h.symm⟩
  | readStatus => exact .inr (.inr (.inl ⟨rfl, by simpa [hostStep, hostReadStatus] using h.symm⟩))
  | readOut i j =>
    right; right; right
    simp only [hostStep, hostReadOut] at h
    split at h
    · split at h
      · rename_i hc hw
        simp only [HostAction.wf, Bool.and_eq_true, decide_eq_true_eq] at hw
        exact ⟨i, j, rfl, hc, hw.1, hw.2, by simpa using h.symm⟩
      · cases h
    · cases h

/-! ### Steps -/

/-- Every step that answers a next state is an action followed by the end of the turn. -/
theorem step_eq_next {s t : State} : step s = .next t ↔ ∃ u, act (nextAction s) s = .next u ∧ t = u.endTurn := by
  rw [step, afterNext_eq_next]

/-- FINAL is the next action only where it is enabled (43_block_finalizer.md R150). -/
theorem finalEnabled_of_nextAction {s : State} (h : nextAction s = .final) : s.finalEnabled = true := by
  have engine : engineAction s = .final → s.finalEnabled = true := by
    intro h
    unfold engineAction at h
    split at h
    · unfold fetchEntry at h; split at h <;> cases h
    · split at h
      · assumption
      · cases h
  unfold nextAction at h
  split at h <;> first | exact engine h | cases h

/-- What a step can do when it answers a next state: run an instruction, FINAL, a host action,
hardware reset, or wait. -/
theorem step_cases {s t : State} (h : step s = .next t) :
    (∃ c i u, nextAction s = .run c ∧ decode c = .ok i ∧ exec i s = .next u ∧ t = u.endTurn) ∨
    (nextAction s = .final ∧ s.finalEnabled = true ∧ t = (final s).endTurn) ∨
    (∃ a u, nextAction s = .host a ∧ hostStep a s = .next u ∧ t = u.endTurn) ∨
    (nextAction s = .reset ∧ t = (hardwareReset s).endTurn) ∨
    (nextAction s = .idle ∧ t = s.endTurn) := by
  obtain ⟨u, hu, rfl⟩ := step_eq_next.mp h
  cases ha : nextAction s with
  | run c =>
    left
    rw [ha] at hu
    simp only [act] at hu
    split at hu
    · rename_i i hi
      exact ⟨c, i, u, rfl, hi, hu, rfl⟩
    · cases hu
  | noEntry a => rw [ha] at hu; cases hu
  | final =>
    right; left
    rw [ha] at hu
    exact ⟨rfl, finalEnabled_of_nextAction ha, by rw [show u = final s by simpa [act] using hu.symm]⟩
  | host a =>
    right; right; left
    rw [ha] at hu
    exact ⟨a, u, rfl, hu, rfl⟩
  | reset =>
    right; right; right; left
    rw [ha] at hu
    exact ⟨rfl, by rw [show u = hardwareReset s by simpa [act] using hu.symm]⟩
  | idle =>
    right; right; right; right
    rw [ha] at hu
    exact ⟨rfl, by rw [show u = s by simpa [act] using hu.symm]⟩

/-- An instruction the engine runs is a ROM entry of the branch it takes; the other instructions run
on the model's own turns (log 7). -/
theorem nextAction_run {s : State} {c : Code} (h : nextAction s = .run c) :
    (∃ b w, s.nextBranch = some b ∧ s.ROM[s.romAddress b]? = some w ∧ c = .s w) ∨
    (∃ w rest, s.turns = .lvop w :: rest ∧ c = .p w) ∨ (∃ w rest, s.turns = .fn w :: rest ∧ c = .f w) := by
  have engine : engineAction s = .run c →
      ∃ b w, s.nextBranch = some b ∧ s.ROM[s.romAddress b]? = some w ∧ c = .s w := by
    intro h
    unfold engineAction at h
    split at h
    · rename_i b hb
      unfold fetchEntry at h
      split at h
      · rename_i w hw
        exact ⟨b, w, hb, hw, by simpa using h.symm⟩
      · cases h
    · split at h <;> cases h
  unfold nextAction at h
  split at h
  · cases h
  · cases h
  · rename_i w rest ht; exact .inr (.inl ⟨w, rest, ht, by simpa using h.symm⟩)
  · rename_i w rest ht; exact .inr (.inr ⟨w, rest, ht, by simpa using h.symm⟩)
  · exact .inl (engine h)
  · exact .inl (engine h)

end Sys2Proof.Machine
end

