-- ==== Sys2Proof/Laws/Calls.lean ====
section
/-! SUPPORT. The engine's steps in a genuine instance, and runs of several steps. -/

namespace Sys2Proof.Machine

/-! ### Phases and turns -/

theorem inCall_iff {s : State} : s.inCall = true ↔ s.PH = .initialized ∨ s.PH = .round := by
  unfold State.inCall; cases s.PH <;> simp

theorem not_inCall_iff {s : State} : s.inCall = false ↔ s.PH = .idle ∨ s.PH = .finalized := by
  unfold State.inCall; cases s.PH <;> simp

theorem finalEnabled_iff {s : State} : s.finalEnabled = true ↔ s.PH = .round ∧ s.JL = 80 ∧ s.JR = 80 := by
  simp [State.finalEnabled, and_assoc]

/-- The engine never makes a host action or a reset. -/
theorem engineAction_engine (s : State) : (∀ a, engineAction s ≠ .host a) ∧ engineAction s ≠ .reset := by
  constructor
  · intro a h
    unfold engineAction fetchEntry at h
    split at h <;> split at h <;> cases h
  · intro h
    unfold engineAction fetchEntry at h
    split at h <;> split at h <;> cases h

/-- A host action comes from a host turn at the head. -/
theorem turns_of_host {s : State} {a : HostAction} (h : nextAction s = .host a) :
    s.turns.head? = some (.host a) := by
  have := (engineAction_engine s).1 a
  unfold nextAction at h
  split at h <;> simp_all

/-- A hardware reset comes from a reset turn at the head. -/
theorem turns_of_reset {s : State} (h : nextAction s = .reset) : s.turns.head? = some .reset := by
  have := (engineAction_engine s).2
  unfold nextAction at h
  split at h <;> simp_all

/-- On the engine's turn the engine's action is next. -/
theorem nextAction_engine {s : State} (h : s.engineTurn = true) : nextAction s = engineAction s := by
  unfold nextAction
  unfold State.engineTurn at h
  split at h <;> simp_all

/-- While a branch has rounds left, the engine has a ROUND step. -/
theorem nextBranch_total {s : State} (hc : s.inCall = true) (hl : s.JL ≤ 80) (hr : s.JR ≤ 80)
    (h : ¬ (s.JL = 80 ∧ s.JR = 80)) : ∃ b, s.nextBranch = some b := by
  cases hb : s.nextBranch with
  | some b => exact ⟨b, rfl⟩
  | none =>
    rw [nextBranch_eq_none_iff] at hb
    simp only [State.roundEnabled, hc, Bool.true_and, decide_eq_false_iff_not, Nat.not_lt] at hb
    have a : 80 ≤ s.JL := hb.1
    have b : 80 ≤ s.JR := hb.2
    omega

/-! ### The engine's steps -/

/-- What the ROM holds at the address of round `j` of a branch. -/
theorem romTable_entry (b : Branch) {j : Nat} (hj : j < 80) :
    ∃ w, romTable[(match b with | .left => j | .right => 80 + j)]? = some w ∧
      decode (.s w) = .ok (.round (scheduleEntry b j).fn (scheduleEntry b j).k (scheduleEntry b j).idx
        (scheduleEntry b j).rot) := by
  have key : ∀ e : Entry, decode (.s (entryWord e)) = .ok (.round e.fn e.k e.idx e.rot) := by
    intro e
    simp [entryWord, decode, decodeEntry, entryRsv1_encodeEntry, entryRsv0_encodeEntry, entryK_encodeEntry,
      entryIdx_encodeEntry, entryRot_encodeEntry, decodeFn, entryFn_encodeEntry, BaseFn.ofNumber?_number]
  cases b with
  | left => exact ⟨entryWord (scheduleEntry .left j), by simp [romTable, List.getElem?_append, hj], key _⟩
  | right => exact ⟨entryWord (scheduleEntry .right j), by simp [romTable, List.getElem?_append, hj], key _⟩

/-- The engine's turn in a genuine instance, when branch `b` is taken: the ROUND step with the
scheduled entry. -/
theorem step_round {s : State} (hg : s.Genuine) (he : s.engineTurn = true) {b : Branch}
    (hb : s.nextBranch = some b) {e : Entry} (hs : scheduleEntry b (s.count b) = e) :
    step s = .next (roundOn b e.fn e.k e.idx e.rot s).endTurn := by
  subst hs
  obtain ⟨w, hw, hd⟩ := romTable_entry b (enabled_of_nextBranch hb).2
  have hr : s.ROM[s.romAddress b]? = some w := by
    rw [hg.rom, ← hw]; cases b <;> rfl
  have hn : nextAction s = .run (.s w) := by
    rw [nextAction_engine he, engineAction, hb]; simp [fetchEntry, hr]
  rw [step, hn]
  simp only [act, hd, exec_round, roundStep, hb, afterNext]

/-- The engine's turn with both branches complete: FINAL. -/
theorem step_final {s : State} (he : s.engineTurn = true) (hp : s.PH = .round) (hl : s.JL = 80) (hr : s.JR = 80) :
    step s = .next (final s).endTurn := by
  have hb : s.nextBranch = none := by
    rw [nextBranch_eq_none_iff]; simp [State.roundEnabled, State.count, hl, hr]
  have hf : s.finalEnabled = true := finalEnabled_iff.mpr ⟨hp, hl, hr⟩
  rw [step, nextAction_engine he]
  simp [engineAction, hb, hf, act, afterNext]

/-! ### Messages and runs -/

/-- Lane `i` of message register `j` after START is the written word of `IN`. -/
theorem lane_gatherMessage {s : State} {i j : Nat} {w : Word} (hi : i < s.n) (hj : j < 16)
    (h : s.IN.word? (16 * i + j) = some w) : lane ((gatherMessage s).getD j []) i = w := by
  have : (gatherMessage s).getD j [] = loadRows s.n 16 s.IN j (s.draws + s.n * j) := by
    simp [gatherMessage, hj]
  rw [this, lane_loadRows _ _ _ _ hi, readWord, effectiveAddress, h]; rfl

/-- A branch reads only the sixteen message words. -/
theorem wordAfter_congr (b : Branch) {m m' : Nat → Word} (h : ∀ j, j < 16 → m j = m' j) (k : Nat) :
    wordAfter b m k = wordAfter b m' k := by
  induction k with
  | zero => rfl
  | succ k ih => simp only [wordAfter, ih, h _ (scheduleEntry b k).idx.isLt]

/-- `compress` reads only the sixteen message words. -/
theorem compress_congr {m m' : Nat → Word} (h : ∀ j, j < 16 → m j = m' j) : compress m = compress m' := by
  simp only [compress, wordAfter_congr _ h]

/-- The byte swap of the model is the byte swap on numbers. -/
theorem bswap32_eq_wordSwap (w : Word) : bswap32 w = wordSwap w := by
  have e : ∀ {m n : Nat} (x : BitVec m) (y : BitVec n), (x ++ y).toNat = x.toNat * 2 ^ n + y.toNat := toNat_append_eq
  have hw := w.isLt
  apply BitVec.eq_of_toNat_eq
  simp only [bswap32, wordSwap, byteOf, e, BitVec.extractLsb'_toNat, Nat.shiftRight_eq_div_pow, BitVec.toNat_ofNat]
  have h3 : w.toNat / 2 ^ 24 < 256 := Nat.div_lt_of_lt_mul (by simpa using hw)
  rw [show 8 * 3 = 24 from rfl, show 8 * 2 = 16 from rfl, show 8 * 1 = 8 from rfl, show 8 * 0 = 0 from rfl,
    pow_zero, Nat.div_one, show 2 ^ 8 = 256 by norm_num]
  rw [Nat.mod_eq_of_lt h3]
  generalize w.toNat / 2 ^ 24 = b3 at *
  have h0 := Nat.mod_lt w.toNat (show 256 > 0 by norm_num)
  have h1 := Nat.mod_lt (w.toNat / 256) (show 256 > 0 by norm_num)
  have h2 := Nat.mod_lt (w.toNat / 2 ^ 16) (show 256 > 0 by norm_num)
  generalize w.toNat % 256 = b0 at *
  generalize w.toNat / 256 % 256 = b1 at *
  generalize w.toNat / 2 ^ 16 % 256 = b2 at *
  norm_num
  rw [Nat.mod_eq_of_lt (by omega)]
  ring

/-- A run of `k + 1` steps is a step and a run of `k` steps. -/
theorem run_next {k : Nat} {s t : State} (h : step s = .next t) :
    Host.Core.run core (k + 1) s = Host.Core.run core k t := by
  have h' : core.step s = .next t := h
  simp only [Host.Core.run, h']

end Sys2Proof.Machine
end

