-- ==== Sys2Proof/Laws/PerInstr.lean ====
section
/-! SUPPORT. What holds of every instruction as syntax, one lemma per constructor: the fixed bits
of its code are those of its row of spec/opcode_table.json. -/

namespace Sys2Proof.Laws

/-- The fixed bits of a row: a format-P code, a format-F code, or the `fn` field of a format-S
entry whose reserved bits are 0 (30_encoding.md R76). -/
inductive Row where
  | p (lvop : BitVec 4)
  | f (fn : BitVec 3)
  | s (fn : Nat)
  deriving DecidableEq, Repr

/-- The row of spec/opcode_table.json of each constructor. -/
def tableRow : Instr → Row
  | .broadcast => .p 0b0000
  | .loadRows => .p 0b0001
  | .storeRows => .p 0b0010
  | .and => .p 0b0011
  | .or => .p 0b0100
  | .xor => .p 0b0101
  | .not => .p 0b0110
  | .add32 => .p 0b0111
  | .rotl => .p 0b1000
  | .byteswap => .p 0b1001
  | .f1 => .f 0b001
  | .f2 => .f 0b010
  | .f3 => .f 0b011
  | .f4 => .f 0b100
  | .f5 => .f 0b101
  | .roundF1 _ _ _ => .s 1
  | .roundF2 _ _ _ => .s 2
  | .roundF3 _ _ _ => .s 3
  | .roundF4 _ _ _ => .s 4
  | .roundF5 _ _ _ => .s 5

/-- A code has the fixed bits of a row. -/
def HasRow : Code → Row → Prop
  | .p w, .p lvop => w = lvop
  | .f w, .f fn => w = fn
  | .s w, .s fn => entryRsv1 w = 0 ∧ (entryFn w).toNat = fn ∧ entryRsv0 w = 0
  | _, _ => False

theorem encodeEntry_hasRow (fn : BaseFn) (k : Word) (idx : BitVec 4) (rot : BitVec 5) :
    HasRow (.s (encodeEntry fn k idx rot)) (.s fn.number) :=
  ⟨entryRsv1_encodeEntry fn k idx rot, entryFn_encodeEntry fn k idx rot, entryRsv0_encodeEntry fn k idx rot⟩

end Sys2Proof.Laws

/-- The encoding of an instruction has the fixed bits of its row of the opcode table. -/
def Sys2Proof.Laws.EncodingRow.Statement (i : Sys2Proof.Instr) : Prop :=
  Sys2Proof.Laws.HasRow (Sys2Proof.encode i) (Sys2Proof.Laws.tableRow i)

theorem Sys2Proof.Laws.EncodingRow.broadcast : Sys2Proof.Laws.EncodingRow.Statement .broadcast := rfl
theorem Sys2Proof.Laws.EncodingRow.loadRows : Sys2Proof.Laws.EncodingRow.Statement .loadRows := rfl
theorem Sys2Proof.Laws.EncodingRow.storeRows : Sys2Proof.Laws.EncodingRow.Statement .storeRows := rfl
theorem Sys2Proof.Laws.EncodingRow.and : Sys2Proof.Laws.EncodingRow.Statement .and := rfl
theorem Sys2Proof.Laws.EncodingRow.or : Sys2Proof.Laws.EncodingRow.Statement .or := rfl
theorem Sys2Proof.Laws.EncodingRow.xor : Sys2Proof.Laws.EncodingRow.Statement .xor := rfl
theorem Sys2Proof.Laws.EncodingRow.not : Sys2Proof.Laws.EncodingRow.Statement .not := rfl
theorem Sys2Proof.Laws.EncodingRow.add32 : Sys2Proof.Laws.EncodingRow.Statement .add32 := rfl
theorem Sys2Proof.Laws.EncodingRow.rotl : Sys2Proof.Laws.EncodingRow.Statement .rotl := rfl
theorem Sys2Proof.Laws.EncodingRow.byteswap : Sys2Proof.Laws.EncodingRow.Statement .byteswap := rfl
theorem Sys2Proof.Laws.EncodingRow.f1 : Sys2Proof.Laws.EncodingRow.Statement .f1 := rfl
theorem Sys2Proof.Laws.EncodingRow.f2 : Sys2Proof.Laws.EncodingRow.Statement .f2 := rfl
theorem Sys2Proof.Laws.EncodingRow.f3 : Sys2Proof.Laws.EncodingRow.Statement .f3 := rfl
theorem Sys2Proof.Laws.EncodingRow.f4 : Sys2Proof.Laws.EncodingRow.Statement .f4 := rfl
theorem Sys2Proof.Laws.EncodingRow.f5 : Sys2Proof.Laws.EncodingRow.Statement .f5 := rfl
theorem Sys2Proof.Laws.EncodingRow.roundF1 (k : Sys2Proof.Word) (idx : BitVec 4) (rot : BitVec 5) :
    Sys2Proof.Laws.EncodingRow.Statement (.roundF1 k idx rot) :=
  Sys2Proof.Laws.encodeEntry_hasRow .f1 k idx rot
theorem Sys2Proof.Laws.EncodingRow.roundF2 (k : Sys2Proof.Word) (idx : BitVec 4) (rot : BitVec 5) :
    Sys2Proof.Laws.EncodingRow.Statement (.roundF2 k idx rot) :=
  Sys2Proof.Laws.encodeEntry_hasRow .f2 k idx rot
theorem Sys2Proof.Laws.EncodingRow.roundF3 (k : Sys2Proof.Word) (idx : BitVec 4) (rot : BitVec 5) :
    Sys2Proof.Laws.EncodingRow.Statement (.roundF3 k idx rot) :=
  Sys2Proof.Laws.encodeEntry_hasRow .f3 k idx rot
theorem Sys2Proof.Laws.EncodingRow.roundF4 (k : Sys2Proof.Word) (idx : BitVec 4) (rot : BitVec 5) :
    Sys2Proof.Laws.EncodingRow.Statement (.roundF4 k idx rot) :=
  Sys2Proof.Laws.encodeEntry_hasRow .f4 k idx rot
theorem Sys2Proof.Laws.EncodingRow.roundF5 (k : Sys2Proof.Word) (idx : BitVec 4) (rot : BitVec 5) :
    Sys2Proof.Laws.EncodingRow.Statement (.roundF5 k idx rot) :=
  Sys2Proof.Laws.encodeEntry_hasRow .f5 k idx rot
end

