-- ==== Sys2Proof/Machine/Listing.lean ====
section
/-! DEFINITION. The notation of schedule entries (30_encoding.md R79):
`<label>: <12 hex digits>  ROUND.F<fn> <k>, x<idx>, <rot>`. -/

namespace Sys2Proof.Machine

/-- A hexadecimal digit, capital. -/
def hexDigit (d : Nat) : String := ((String.ofList [Nat.digitChar d]).map Char.toUpper)

/-- `digits` hexadecimal digits of a number. -/
def hexDigits : Nat → Nat → String
  | 0, _ => ""
  | digits + 1, v => hexDigits digits (v / 16) ++ hexDigit (v % 16)

/-- `ROUND.F<fn> <k>, x<idx>, <rot>` (R79). -/
def Entry.listing (e : Entry) : String :=
  "ROUND.F" ++ toString e.fn.number ++ " 0x" ++ hexDigits 8 e.k.toNat ++ ", x"
    ++ toString e.idx.toNat ++ ", " ++ toString e.rot.toNat

/-- The label of a ROM address (R79): `L#<j>` for `j`, `R#<j>` for `80 + j`. -/
def romLabel (a : Nat) : String :=
  if a < 80 then "L#" ++ toString a else "R#" ++ toString (a - 80)

/-- A ROM listing line (R79). -/
def romLine (a : Nat) (e : Entry) : String :=
  romLabel a ++ ": " ++ hexDigits 12 (entryWord e).toNat ++ "  " ++ Entry.listing e

end Sys2Proof.Machine
end

