-- ==== Sys2Proof/Tests/Slice0.lean ====
section
/-! SUPPORT. The model's own tests. Expected results come from spec/95_test_vectors.md (V-..) and
spec/30_encoding.md. The last part gives, for every statement with hypotheses, a state and operands
that meet them all. -/

namespace Sys2Proof.Machine

set_option Elab.async false

/-- The next state of an outcome. -/
def nextOf : Host.Outcome State Fault Refusal → Option State
  | .next s => some s
  | .fault _ => none
  | .refused _ => none

/-- The refusal of an outcome. -/
def refusalOf : Host.Outcome State Fault Refusal → Option Refusal
  | .next _ => none
  | .fault _ => none
  | .refused r => some r

/-- A one-lane quintuple. -/
def quint1 (a b c d e : Word) : Quint := ⟨[a], [b], [c], [d], [e]⟩

/-- A one-lane instance whose port holds three operands. -/
def portState (x y z : Word) : State :=
  { State.reset with port := { State.reset.port with x := [x], y := [y], z := [z] } }

/-- The result an instruction run alone leaves in the port. -/
def resultOf (i : Instr) (s : State) : Option LaneVec := (nextOf (exec i s)).map (·.port.result)

/-- A one-lane instance in `ROUND` about to take a left step; message register `idx` holds `x`. -/
def roundState (q : Quint) (idx : Nat) (x : Word) : State :=
  { State.reset with
    PH := .round
    JL := 5
    JR := 5
    L := q
    X := (List.replicate 16 [0xDEADBEEF]).set idx [x]
    turns := [.engine (some .left)] }

/-- The left quintuple after a ROUND micro-instruction. -/
def leftAfter (i : Instr) (s : State) : Option Quint := (nextOf (exec i s)).map (·.L)

/-! ### Well-formedness: what the checks refuse -/

theorem test_lanes_0_refused : lanesWf 0 = false := by decide
theorem test_lanes_2_refused : lanesWf 2 = false := by decide
theorem test_lanes_16_refused : lanesWf 16 = false := by decide
theorem test_lanes_8_accepted : lanesWf 8 = true := by decide
theorem test_schedule_short_refused : scheduleWf (List.replicate 159 ⟨.f1, 0, 0, 11⟩) = false := by decide +kernel
theorem test_schedule_wrong_function_refused :
    scheduleWf (List.replicate 160 ⟨.f2, 0, 0, 11⟩) = false := by decide +kernel
theorem test_indices_repeated_refused :
    isIndexPermutation [0, 1, 2, 3, 4, 5, 6, 7, 8, 9, 10, 11, 12, 13, 14, 14] = false := by decide
theorem test_indices_fifteen_refused : isIndexPermutation (List.range 15) = false := by decide
theorem test_write_lane_refused : HostAction.wf 4 (.writeIn 4 0 0) = false := by decide
theorem test_write_index_refused : HostAction.wf 4 (.writeIn 0 16 0) = false := by decide
theorem test_read_lane_refused : HostAction.wf 1 (.readOut 1 0) = false := by decide
theorem test_read_index_refused : HostAction.wf 8 (.readOut 7 5) = false := by decide
theorem test_rom_accepted : romWf romTable = true := by decide +kernel
theorem test_rom_swapped_index_refused : romWf (romTable.set 0 0x10000000010B) = false := by decide +kernel
theorem test_rom_wrong_function_refused : romWf (romTable.set 0 0x20000000000B) = false := by decide +kernel
theorem test_rom_reserved_refused : romWf (romTable.set 159 0) = false := by decide +kernel
theorem test_rom_short_refused : romWf (romTable.take 159) = false := by decide +kernel

/-! ### Decoding: words written out from 30_encoding.md R71, R74, R75 and V-D70 -/

theorem test_decode_broadcast : decode (.p 0b0000) = .ok .broadcast := by decide
theorem test_decode_loadRows : decode (.p 0b0001) = .ok .loadRows := by decide
theorem test_decode_storeRows : decode (.p 0b0010) = .ok .storeRows := by decide
theorem test_decode_and : decode (.p 0b0011) = .ok .and := by decide
theorem test_decode_or : decode (.p 0b0100) = .ok .or := by decide
theorem test_decode_xor : decode (.p 0b0101) = .ok .xor := by decide
theorem test_decode_not : decode (.p 0b0110) = .ok .not := by decide
theorem test_decode_add32 : decode (.p 0b0111) = .ok .add32 := by decide
theorem test_decode_rotl : decode (.p 0b1000) = .ok .rotl := by decide
theorem test_decode_byteswap : decode (.p 0b1001) = .ok .byteswap := by decide
theorem test_decode_lvop_reserved : decode (.p 0b1010) = .error .reservedLvop ∧ decode (.p 0b1111) = .error .reservedLvop := by
  decide
theorem test_decode_f1 : decode (.f 0b001) = .ok .f1 := by decide
theorem test_decode_f2 : decode (.f 0b010) = .ok .f2 := by decide
theorem test_decode_f3 : decode (.f 0b011) = .ok .f3 := by decide
theorem test_decode_f4 : decode (.f 0b100) = .ok .f4 := by decide
theorem test_decode_f5 : decode (.f 0b101) = .ok .f5 := by decide
theorem test_decode_fn_reserved :
    decode (.f 0b000) = .error .reservedFn ∧ decode (.f 0b110) = .error .reservedFn ∧ decode (.f 0b111) = .error .reservedFn := by
  decide
theorem test_decode_roundF1 : decode (.s 0x10000000000B) = .ok (.roundF1 0x00000000 0 11) := by decide
theorem test_decode_roundF2 : decode (.s 0x25A827999707) = .ok (.roundF2 0x5A827999 7 7) := by decide
theorem test_decode_roundF3 : decode (.s 0x36ED9EBA130B) = .ok (.roundF3 0x6ED9EBA1 3 11) := by decide
theorem test_decode_roundF4 : decode (.s 0x45C4DD124609) = .ok (.roundF4 0x5C4DD124 6 9) := by decide
theorem test_decode_roundF5 : decode (.s 0x5A953FD4ED06) = .ok (.roundF5 0xA953FD4E 13 6) := by decide
theorem test_decode_largest_fields : decode (.s 0x1FFFFFFFFF1F) = .ok (.roundF1 0xFFFFFFFF 15 31) := by decide
theorem test_decode_entry_reserved :
    decode (.s 0x00000000000B) = .error .reservedFn ∧ decode (.s 0x60000000000B) = .error .reservedFn ∧
    decode (.s 0x70000000000B) = .error .reservedFn ∧ decode (.s 0x90000000000B) = .error .rsv1NotZero ∧
    decode (.s 0x10000000002B) = .error .rsv0NotZero ∧ decode (.s 0x1000000000EB) = .error .rsv0NotZero := by
  decide
theorem test_table_words :
    decodeTableWord 48 0x25A827999707 = some (.roundF2 0x5A827999 7 7) ∧ decodeTableWord 8 7 = some .add32 ∧
    decodeTableWord 4 7 = some .add32 ∧ decodeTableWord 3 4 = some .f4 ∧ decodeTableWord 8 10 = none := by
  decide

/-- Rows of table T-42.7. -/
theorem test_rom_rows :
    romTable[0]? = some 0x10000000000B ∧ romTable[16]? = some 0x25A827999707 ∧ romTable[79]? = some 0x5A953FD4ED06 ∧
    romTable[80]? = some 0x550A28BE6508 ∧ romTable[96]? = some 0x45C4DD124609 ∧ romTable[159]? = some 0x100000000B0B := by
  decide +kernel

/-- 30_encoding.md R79: a listing line. -/
theorem test_listing :
    romLine 16 (scheduleEntry .left 16) = "L#16: 25A827999707  ROUND.F2 0x5A827999, x7, 7" := by
  decide +kernel

/-! ### Primitives (V-D1 to V-D7) -/

theorem test_broadcast :
    resultOf .broadcast { State.resetOf .four romTable with port := { State.reset.port with k := 0xA953FD4E } }
      = some [0xA953FD4E, 0xA953FD4E, 0xA953FD4E, 0xA953FD4E] := by decide
theorem test_loadRows :
    resultOf .loadRows { State.resetOf .four romTable with
      IN := (List.range 64).map fun a => (a, BitVec.ofNat 32 (0x10000000 + a))
      port := { State.reset.port with inIdx := 5 } }
      = some [0x10000005, 0x10000015, 0x10000025, 0x10000035] := by decide +kernel
theorem test_storeRows :
    (nextOf (exec .storeRows { State.resetOf .four romTable with
      OUT := (List.range 20).map fun a => (a, BitVec.ofNat 32 (0xEEEE0000 + a))
      port := { State.reset.port with outIdx := 4, x := [0xAAAA0000, 0xAAAA0001, 0xAAAA0002, 0xAAAA0003] } })).map
      (fun t => [t.OUT.word? 4, t.OUT.word? 9, t.OUT.word? 14, t.OUT.word? 19, t.OUT.word? 3, t.OUT.word? 5])
      = some [some 0xAAAA0000, some 0xAAAA0001, some 0xAAAA0002, some 0xAAAA0003, some 0xEEEE0003, some 0xEEEE0005] := by
  decide +kernel
theorem test_and : resultOf .and (portState 0x0F0F0F0F 0x33333333 0) = some [0x03030303] := by decide
theorem test_or : resultOf .or (portState 0x0F0F0F0F 0x33333333 0) = some [0x3F3F3F3F] := by decide
theorem test_xor : resultOf .xor (portState 0x0F0F0F0F 0x33333333 0) = some [0x3C3C3C3C] := by decide
theorem test_not : resultOf .not (portState 0x12345678 0 0) = some [0xEDCBA987] := by decide
theorem test_add32 : resultOf .add32 (portState 0xFFFFFFFF 0xFFFFFFFF 0) = some [0xFFFFFFFE] := by decide
theorem test_add32_lanes :
    addV 4 [0xFFFFFFFF, 0, 0x80000000, 0x7FFFFFFF] [1, 0, 0x80000000, 1] = [0, 0, 0, 0x80000000] := by decide
theorem test_rotl : rotlV 1 [0x98BADCFE] 10 = [0xEB73FA62] ∧ rotlV 1 [0x12345678] 31 = [0x091A2B3C] ∧
    rotlV 1 [0x80000001] 0 = [0x80000001] := by decide
theorem test_rotl_port :
    resultOf .rotl { State.reset with port := { State.reset.port with x := [0x12345678], n := 5 } } = some [0x468ACF02] := by
  decide
theorem test_byteswap : resultOf .byteswap (portState 0x12345678 0 0) = some [0x78563412] := by decide

/-! ### Base functions (V-D10) -/

theorem test_f1 : resultOf .f1 (portState 0x12345678 0x9ABCDEF0 0x0FEDCBA9) = some [0x87654321] := by decide
theorem test_f2 : resultOf .f2 (portState 0x12345678 0x9ABCDEF0 0x0FEDCBA9) = some [0x1FFDDFF1] := by decide
theorem test_f3 : resultOf .f3 (portState 0x12345678 0x9ABCDEF0 0x0FEDCBA9) = some [0x789ABCD6] := by decide
theorem test_f4 : resultOf .f4 (portState 0x12345678 0x9ABCDEF0 0x0FEDCBA9) = some [0x92345678] := by decide
theorem test_f5 : resultOf .f5 (portState 0x12345678 0x9ABCDEF0 0x0FEDCBA9) = some [0xE88AA88E] := by decide

/-! ### ROUND (V-D20 to V-D26) -/

theorem test_roundF1 :
    leftAfter (.roundF1 0 0 11) (roundState (quint1 0x67452301 0xEFCDAB89 0x98BADCFE 0x10325476 0xC3D2E1F0) 0 0x80)
      = some (quint1 0xC3D2E1F0 0x1606F864 0xEFCDAB89 0xEB73FA62 0x10325476) := by decide
theorem test_roundF2 :
    leftAfter (.roundF2 0x80000000 3 0) (roundState (quint1 0x80000000 1 2 3 0x80000000) 3 0x80000000)
      = some (quint1 0x80000000 2 1 0x800 3) := by decide
theorem test_roundF3 :
    leftAfter (.roundF3 0xFFFFFFFF 15 31)
      (roundState (quint1 0xFFFFFFFF 0xFFFFFFFF 0xFFFFFFFF 0xFFFFFFFF 0xFFFFFFFF) 15 0xFFFFFFFF)
      = some (quint1 0xFFFFFFFF 0xFFFFFFFD 0xFFFFFFFF 0xFFFFFFFF 0xFFFFFFFF) := by decide
theorem test_roundF4 :
    leftAfter (.roundF4 0x5C4DD124 6 9)
      (roundState (quint1 0x67452301 0xEFCDAB89 0x98BADCFE 0x10325476 0xC3D2E1F0) 6 0x12345678)
      = some (quint1 0xC3D2E1F0 0x63792CAC 0xEFCDAB89 0xEB73FA62 0x10325476) := by decide
theorem test_roundF5_right :
    (nextOf (exec (.roundF5 0x50A28BE6 5 8) { roundState (quint1 0 0 0 0 0) 5 0 with
      R := quint1 0x67452301 0xEFCDAB89 0x98BADCFE 0x10325476 0xC3D2E1F0
      turns := [.engine (some .right)] })).map (fun t => (t.R, t.L, t.JL, t.JR))
      = some (quint1 0xC3D2E1F0 0xDDD63FB8 0xEFCDAB89 0xEB73FA62 0x10325476, quint1 0 0 0 0 0, 5, 6) := by decide

/-! ### START, FINAL, the host, whole steps -/

/-- The rows of `IN` for sixteen words per lane. -/
def rowsIN (ws : List Word) : Memory := (List.range ws.length).zip ws

/-- The padded block of "abc" (V-D52). -/
def abcBlock : List Word := [0x80636261, 0, 0, 0, 0, 0, 0, 0, 0, 0, 0, 0, 0, 0, 0x18, 0]

/-- The padded block of the empty message (V-S1). -/
def emptyBlock : List Word := [0x80, 0, 0, 0, 0, 0, 0, 0, 0, 0, 0, 0, 0, 0, 0, 0]

/-- P1 of 95_test_vectors.md: START and two rounds in the default order. -/
theorem test_start_and_two_rounds :
    (nextOf (Host.Core.run core 3 { State.reset with IN := rowsIN abcBlock, turns := [.host .start] })).map
      (fun t => (t.L, t.R, t.JL, t.JR, t.PH))
      = some (quint1 0xC3D2E1F0 0x3115FC67 0xEFCDAB89 0xEB73FA62 0x10325476,
          quint1 0xC3D2E1F0 0xDDD63FB8 0xEFCDAB89 0xEB73FA62 0x10325476, 1, 1, .round) := by decide +kernel

/-- V-D31 and V-D37. -/
theorem test_final :
    (nextOf (step { State.reset with
      PH := .round, JL := 80, JR := 80
      S := quint1 0x67452301 0xEFCDAB89 0x98BADCFE 0x10325476 0xC3D2E1F0
      L := quint1 0x641129CA 0xD563BFDC 0x0B2CDC01 0x6E413468 0xFC433DA8
      R := quint1 0x81D4727D 0x5FCCBADE 0xBF627814 0xFC0E2B04 0x739C4C7A })).map (fun t => (t.S, t.OUT, t.PH))
      = some (quint1 0xF708B28E 0x7A985DE0 0x8E4A049B 0x87B0C698 0xFC0B5AF1,
          rowsIN [0x8EB208F7, 0xE05D987A, 0x9B044A8E, 0x98C6B087, 0xF15A0BFC], .finalized) := by decide +kernel

/-- V-S1. -/
theorem test_compress_empty :
    compress (fun j => emptyBlock.getD j 0) = ⟨0x9C1185A5, 0xC5E9FC54, 0x61280897, 0x7EE8F548, 0xB2258D31⟩ := by
  decide +kernel
/-- V-D59. -/
theorem test_compress_counting :
    compress (fun j => BitVec.ofNat 32 j) = ⟨0xB1CDDEAD, 0xD3D13C58, 0x7518BA14, 0x5C865997, 0x39052A39⟩ := by
  decide +kernel

/-- P5: what the host may not do. -/
theorem test_host_refused :
    refusalOf (step { State.reset with turns := [.host (.readOut 0 0)] }) = some .hostReadOutNotFinalized ∧
    refusalOf (step { roundState (quint1 0 0 0 0 0) 0 0 with turns := [.host .start] }) = some .hostStartInCall ∧
    refusalOf (step { roundState (quint1 0 0 0 0 0) 0 0 with turns := [.host (.writeIn 0 3 1)] }) = some .hostWriteInCall ∧
    refusalOf (step { State.reset with turns := [.host (.writeIn 1 0 1)] }) = some .hostIndexOutOfRange := by decide

/-- P5: what the host may do. -/
theorem test_host_status_and_read :
    (nextOf (step { roundState (quint1 0 0 0 0 0) 0 0 with turns := [.host .readStatus] })).map (·.reply)
      = some (.status 0b10) ∧
    (nextOf (step { State.reset with PH := .finalized, OUT := [(3, 7)], turns := [.host (.readOut 0 3)] })).map (·.reply)
      = some (.word 7) := by decide +kernel

/-- 20_memory.md R58 and R59, V-S2. -/
theorem test_bytes :
    packBytes [0x61, 0x62, 0x63, 0x80] = [0x80636261] ∧ (frameMessage [0x61, 0x62, 0x63]).map packBytes = some abcBlock ∧
    (frameMessage []).map packBytes = some emptyBlock ∧
    digestBytes [0x8EB208F7, 0xF15A0BFC] = [0x8E, 0xB2, 0x08, 0xF7, 0xF1, 0x5A, 0x0B, 0xFC] := by decide +kernel

/-- A word placed after reset is what the next step runs: a ROUND entry, a primitive, a base function. -/
theorem test_withFetchWord :
    (nextOf (step (State.reset.withFetchWord 48 0x1FFFFFFFFF1F))).map (fun t => (t.JL, t.PH, t.L))
      = some (1, .round, quint1 0 0xFFFFFFFF 0 0 0) ∧
    (nextOf (step (State.reset.withFetchWord 8 6))).map (·.port.result) = some [0xFFFFFFFF] ∧
    (nextOf (step (State.reset.withFetchWord 3 5))).map (·.port.result) = some [0xFFFFFFFF] := by decide +kernel

/-! ### Witnesses: states and operands that meet the hypotheses of each statement -/

/-- An instance with lane width `w`, input buffer `m`, phase and counters as given, turns to come. -/
def demo (w : LaneWidth) (m : Memory) (p : Phase) (jl jr : Nat) (ts : List Turn) : State :=
  { State.resetOf w romTable with PH := p, JL := jl, JR := jr, IN := m, turns := ts }

/-- The one-lane instance with the "abc" block in `IN`. -/
def abc (p : Phase) (jl jr : Nat) (ts : List Turn) : State := demo .one (rowsIN abcBlock) p jl jr ts

/-- The four-lane instance with the "abc" block in each row of `IN`. -/
def abc4 (p : Phase) (jl jr : Nat) (ts : List Turn) : State :=
  demo .four (rowsIN (abcBlock ++ abcBlock ++ abcBlock ++ abcBlock)) p jl jr ts

theorem demo_genuine (w : LaneWidth) (m : Memory) (p : Phase) (jl jr : Nat) (ts : List Turn) :
    (demo w m p jl jr ts).Genuine := ⟨rfl, rfl⟩

theorem demo_inv {w : LaneWidth} {m : Memory} {p : Phase} {jl jr : Nat} (ts : List Turn) (hm : m.Good (16 * w.count))
    (hl : jl ≤ 80) (hr : jr ≤ 80) (h0 : p = .initialized → jl = 0 ∧ jr = 0) (h1 : p = .round → 1 ≤ jl + jr)
    (h2 : p ≠ .finalized) : (demo w m p jl jr ts).Inv := by
  have hz : ∀ n, (zeroVec n).length = n := fun n => List.length_replicate
  have hq : (zeroQuint w.count).Sized w.count := ⟨hz _, hz _, hz _, hz _, hz _⟩
  exact ⟨hq, hq, hq, List.length_replicate, fun v hv => by rw [List.eq_of_mem_replicate hv]; exact hz _, hl, hr, hm,
    Memory.Good.nil _, h0, h1, fun h => absurd h h2⟩

theorem good_of_listed {m : Memory} {size : Nat} (h : m.wf = true) (hs : ∀ p ∈ m, p.1 < size) : m.Good size :=
  ⟨h, fun _ _ hw => hs _ (Memory.mem_of_word? hw)⟩

theorem abc_good : (rowsIN abcBlock).Good (16 * LaneWidth.one.count) := good_of_listed (by decide) (by decide)

theorem abc4_good : (rowsIN (abcBlock ++ abcBlock ++ abcBlock ++ abcBlock)).Good (16 * LaneWidth.four.count) :=
  good_of_listed (by decide +kernel) (by decide +kernel)

theorem test_witness_OnlyThreeLaneCountsBuild :
    (∃ s, instantiate 1 romTable = .ok s) ∧ ((0 : Nat) ≠ 1 ∧ (0 : Nat) ≠ 4 ∧ (0 : Nat) ≠ 8) ∧
    ((9 : Nat) ≠ 1 ∧ (9 : Nat) ≠ 4 ∧ (9 : Nat) ≠ 8) ∧ romWf (romTable.take 159) = false ∧ romWf romTable = true :=
  ⟨⟨State.resetOf .one romTable, by
    have h : romWf romTable = true := test_rom_accepted
    simp [instantiate, LaneWidth.ofCount?, h]⟩, by decide, by decide, test_rom_short_refused, test_rom_accepted⟩

/-- A table the check accepts, the bounds of its clauses, and the lane counts at which a refused one is met. -/
theorem test_witness_RomCheckAcceptsExactlySchedules :
    romWf romTable = true ∧ 0 < 160 ∧ 159 < 160 ∧ 9 < 10 ∧ 15 < 16 := ⟨test_rom_accepted, by decide⟩

theorem test_witness_HardwareResetGoesToIdle :
    (abc .round 40 39 [.reset, .host .start]).turns = .reset :: [.host .start] ∧
    (abc .finalized 80 80 [.reset]).turns = .reset :: [] := ⟨rfl, rfl⟩

theorem test_witness_EncodeOfDecodeIsIdentity :
    decode (.p 9) = .ok .byteswap ∧ decode (.f 5) = .ok .f5 ∧
    decode (.s 0x1FFFFFFFFF1F) = .ok (.roundF1 0xFFFFFFFF 15 31) := by decide

theorem test_witness_ReservedEncodingsAreInvalid :
    (∃ w ∈ ([0x00000000000B] : List (BitVec 48)), ∃ e, decode (.s w) = .error e) ∧ 160 ≤ 160 :=
  ⟨⟨_, List.mem_cons_self, .reservedFn, by decide⟩, by decide⟩

theorem test_witness_EntryFieldsStandInTheirBits :
    decode (.s 0x5A953FD4ED06) = .ok (.roundF5 0xA953FD4E 13 6) := by decide

theorem test_witness_RomHoldsTheSchedule : 0 < 80 ∧ 79 < 80 := by decide

theorem test_witness_WordFunctionsAsDefined :
    0 < (1 : BitVec 5).toNat ∧ 0 < (31 : BitVec 5).toNat := by decide

theorem test_witness_LaneOccupiesItsBits : 0 < 1 ∧ 7 < 8 := by decide

/-- For BROADCAST, AND, OR, XOR, NOT, ADD32, BYTESWAP and the base functions: a lane and a bit in range. -/
theorem test_witness_lanes :
    0 < State.reset.n ∧ 3 < (State.resetOf .four romTable).n ∧ 7 < (State.resetOf .eight romTable).n ∧
    State.reset.lanes = .one ∧ 31 < 32 := by decide

theorem test_witness_LoadRowsGathersOneWordPerLane :
    0 < (abc .idle 0 0 []).n ∧
    (abc .idle 0 0 []).IN.word? (16 * 0 + (abc .idle 0 0 []).port.inIdx.val) = some 0x80636261 := by decide

theorem test_witness_StoreRowsScattersOneWordPerLane :
    3 < (abc4 .idle 0 0 []).n ∧ (abc4 .idle 0 0 []).OUT.wf = true ∧
    (∀ i, i < (abc4 .idle 0 0 []).n → 1 ≠ effectiveAddress 5 i (abc4 .idle 0 0 []).port.outIdx.val) := by decide +kernel

theorem test_witness_RotlMovesEveryBit : 0 < State.reset.n ∧ 31 < 32 ∧ State.reset.port.n = 0 := by decide

theorem test_witness_BitwisePrimitivesAsDefined : 0 < 1 ∧ 7 < 8 := by decide

theorem test_witness_AdditionWrapsWithoutCarry : 0 < 1 ∧ 7 < 8 := by decide

theorem test_witness_BaseFunctionsAsDefined : 0 < 1 ∧ 7 < 8 := by decide

theorem test_witness_ByteswapReversesBytes : 0 < State.reset.n ∧ 0 < 4 ∧ 3 < 4 := by decide

theorem test_witness_LeftRoundStep :
    (∀ s ∈ [abc .initialized 0 0 [], abc .round 79 79 [.engine (some .left)]],
      (s.PH = .initialized ∨ s.PH = .round) ∧ s.JL < 80 ∧ s.preference.getD s.defaultBranch = .left) ∧
    ((abc .round 79 80 [.engine (some .right)]).PH = .round ∧ (abc .round 79 80 [.engine (some .right)]).JL < 80 ∧
      ¬ (abc .round 79 80 [.engine (some .right)]).JR < 80) := by decide

theorem test_witness_RightRoundStep :
    (∀ s ∈ [abc .initialized 0 0 [.engine (some .right)], abc .round 80 79 []],
      (s.PH = .initialized ∨ s.PH = .round) ∧ s.JR < 80 ∧ s.preference.getD s.defaultBranch = .right) ∧
    ((abc .round 80 79 [.engine (some .left)]).PH = .round ∧ (abc .round 80 79 [.engine (some .left)]).JR < 80 ∧
      ¬ (abc .round 80 79 [.engine (some .left)]).JL < 80) := by decide

theorem test_witness_EngineMayTakeEitherBranch :
    ((abc .round 79 80 [.engine (some .left)]).Genuine ∧ (abc .round 79 80 [.engine (some .left)]).PH = .round ∧
      (abc .round 79 80 [.engine (some .left)]).turns = .engine (some .left) :: [] ∧
      (abc .round 79 80 [.engine (some .left)]).count .left < 80) ∧
    ((abc .round 80 79 [.engine (some .left)]).Genuine ∧
      (abc .round 80 79 [.engine (some .left)]).turns = .engine (some .left) :: [] ∧
      ¬ (abc .round 80 79 [.engine (some .left)]).count .left < 80 ∧
      (abc .round 80 79 [.engine (some .left)]).count Branch.left.other < 80) :=
  ⟨⟨demo_genuine _ _ _ _ _ _, rfl, rfl, by decide⟩, demo_genuine _ _ _ _ _ _, rfl, by decide, by decide⟩

theorem test_witness_LeftAndRightStepsCommute :
    (abc .round 79 79 []).Genuine ∧ (abc .round 79 79 []).PH = .round ∧ (abc .round 79 79 []).JL < 80 ∧
    (abc .round 79 79 []).JR < 80 := ⟨demo_genuine _ _ _ _ _ _, rfl, by decide, by decide⟩

theorem test_witness_DefaultOrderAlternates :
    (abc .initialized 0 0 []).Genuine ∧ (abc .initialized 0 0 []).PH = .initialized ∧ (abc .initialized 0 0 []).JL = 0 ∧
    (abc .initialized 0 0 []).JR = 0 ∧ (abc .initialized 0 0 []).turns = [] ∧ 160 ≤ 160 :=
  ⟨demo_genuine _ _ _ _ _ _, rfl, rfl, rfl, rfl, by decide⟩

theorem test_witness_StartInitialisesTheCall :
    ((abc .idle 0 0 [.host .start]).IVROM = ivTable ∧ (abc .idle 0 0 [.host .start]).PH = .idle ∧
      (abc .idle 0 0 [.host .start]).turns = .host .start :: [] ∧ 0 < (abc .idle 0 0 [.host .start]).n ∧
      (abc .idle 0 0 [.host .start]).IN.word? (16 * 0 + 14) = some 0x18) ∧
    ((abc4 .finalized 80 80 [.host .start]).PH = .finalized ∧
      (abc4 .finalized 80 80 [.host .start]).turns = .host .start :: [] ∧ 3 < (abc4 .finalized 80 80 [.host .start]).n ∧
      (abc4 .finalized 80 80 [.host .start]).IN.word? (16 * 3 + 15) = some 0) := by decide +kernel

theorem test_witness_FinalCombinesAndStores :
    ∀ s ∈ [abc .round 80 80 [.engine none], abc .round 80 80 []],
      s.PH = .round ∧ s.JL = 80 ∧ s.JR = 80 ∧ s.engineTurn = true ∧ 0 < s.n ∧ s.OUT.wf = true := by decide

theorem test_witness_FinalOnlyAfterBothBranches :
    ((abc .round 80 80 []).PH = .round ∧ (abc .round 80 80 []).JL = 80 ∧ (abc .round 80 80 []).JR = 80 ∧
      (abc .round 80 80 []).engineTurn = true) ∧ nextAction (abc .round 80 80 []) = .final := by decide

theorem test_witness_IllegalHostActionsRefused :
    ((abc .round 1 0 [.host .start]).PH = .round ∧ (abc .round 1 0 [.host .start]).turns = .host .start :: []) ∧
    ((abc .initialized 0 0 [.host (.writeIn 0 3 1)]).PH = .initialized ∧
      (abc .initialized 0 0 [.host (.writeIn 0 3 1)]).turns = .host (.writeIn 0 3 1) :: []) ∧
    ((abc .idle 0 0 [.host (.readOut 0 0)]).PH ≠ .finalized ∧
      (abc .idle 0 0 [.host (.readOut 0 0)]).turns = .host (.readOut 0 0) :: []) := by decide

theorem test_witness_HostWritesOneInputWord :
    ((abc .idle 0 0 [.host (.writeIn 0 15 1)]).PH = .idle ∧ 0 < (abc .idle 0 0 []).n ∧ 15 < 16 ∧
      (abc .idle 0 0 [.host (.writeIn 0 15 1)]).turns = .host (.writeIn 0 15 1) :: [] ∧
      (abc .idle 0 0 [.host (.writeIn 0 15 1)]).IN.wf = true) ∧
    ((abc4 .finalized 80 80 [.host (.writeIn 3 0 1)]).PH = .finalized ∧ 3 < (abc4 .finalized 80 80 []).n) := by
  decide +kernel

theorem test_witness_HostReadsOneOutputWord :
    ({ abc .finalized 80 80 [.host (.readOut 0 4)] with OUT := [(4, 9)] } : State).PH = .finalized ∧
    0 < (abc .finalized 80 80 []).n ∧ 4 < 5 ∧
    ({ abc .finalized 80 80 [.host (.readOut 0 4)] with OUT := [(4, 9)] } : State).turns = .host (.readOut 0 4) :: [] ∧
    ({ abc .finalized 80 80 [.host (.readOut 0 4)] with OUT := [(4, 9)] } : State).OUT.word? (5 * 0 + 4) = some 9 := by
  decide

theorem test_witness_StatusReturnsThePhaseCode :
    (abc .idle 0 0 [.host .readStatus]).turns = .host .readStatus :: [] ∧ (abc .idle 0 0 []).PH = .idle ∧
    (abc .initialized 0 0 []).PH = .initialized ∧ (abc .round 1 0 []).PH = .round ∧
    (abc .finalized 80 80 []).PH = .finalized := by decide

theorem test_witness_StepRunsTheDecodedInstruction :
    (nextAction (abc .initialized 0 0 []) = .run (.s 0x10000000000B) ∧
      decode (.s 0x10000000000B) = .ok (.roundF1 0 0 11)) ∧
    ((abc .round 80 79 []).engineTurn = true ∧ (abc .round 80 79 []).nextBranch = some .right ∧
      (abc .round 80 79 []).ROM[(abc .round 80 79 []).romAddress .right]? = some 0x100000000B0B) ∧
    (abc .idle 0 0 [.lvop 3]).turns = .lvop 3 :: [] ∧ (abc .idle 0 0 [.fn 5]).turns = .fn 5 :: [] := by
  decide +kernel

theorem test_witness_PlacedCodeIsFetchedNext : State.reset.ROM.length = 160 := by decide +kernel

theorem test_witness_StepKeepsInvariant :
    (abc .round 79 80 []).Inv ∧ (nextOf (step (abc .round 79 80 []))).isSome = true ∧
    (abc .idle 0 0 [.host .start]).Inv ∧ (nextOf (step (abc .idle 0 0 [.host .start]))).isSome = true :=
  ⟨demo_inv _ abc_good (by decide) (by decide) (by decide) (by decide) (by decide), by decide +kernel,
    demo_inv _ abc_good (by decide) (by decide) (by decide) (by decide) (by decide), by decide +kernel⟩

/-- A call just started: the quintuples are the IV. -/
def started : State :=
  let iv := quint1 0x67452301 0xEFCDAB89 0x98BADCFE 0x10325476 0xC3D2E1F0
  { abc .initialized 0 0 [.engine (some .right)] with S := iv, L := iv, R := iv }

theorem test_witness_StepKeepsSchedule :
    started.Genuine ∧ started.OnSchedule ∧ (∀ u ∈ started.turns.head?, u.ofSpec = true) ∧
    (nextOf (step started)).isSome = true := by
  have h : ∀ i, i < started.n → i = 0 := fun i hi => by
    have : i < 1 := hi
    omega
  refine ⟨⟨rfl, rfl⟩, ⟨fun _ i hi => ?_, fun _ i hi => ?_, fun _ i hi => ?_, fun hf => by cases hf⟩, by decide, by decide +kernel⟩
  · rw [h i hi]; rfl
  · rw [h i hi]; rfl
  · rw [h i hi]; rfl

/-- One witness per row of table T-42.1. -/
theorem test_witness_PhaseFollowsTransitionTable :
    (nextOf (step (abc .idle 0 0 [.host .readStatus]))).isSome = true ∧ (nextOf (step (abc .round 80 80 [.reset]))).isSome = true ∧
    (nextOf (step (abc .finalized 80 80 [.host .start]))).isSome = true ∧ (nextOf (step (abc .round 79 80 []))).isSome = true ∧
    (nextOf (step (abc .round 80 79 []))).isSome = true ∧ (nextOf (step (abc .round 80 80 []))).isSome = true := by
  decide +kernel

theorem test_witness_StepAnswersExactlyOnLegalTurns :
    (abc .round 79 80 [.engine none]).Inv ∧ (abc .round 79 80 [.engine none]).Genuine ∧
    (abc .round 79 80 [.engine none]).turnLegal = true ∧ (abc .round 79 80 [.host .start]).turnLegal = false :=
  ⟨demo_inv _ abc_good (by decide) (by decide) (by decide) (by decide) (by decide), demo_genuine _ _ _ _ _ _, by decide,
    by decide⟩

theorem test_witness_EngineAlwaysProgresses :
    ((abc .initialized 0 0 []).Inv ∧ (abc .initialized 0 0 []).Genuine ∧ (abc .initialized 0 0 []).engineTurn = true ∧
      (abc .initialized 0 0 []).PH = .initialized) ∧
    ((abc .round 80 80 []).Inv ∧ (abc .round 80 80 []).engineTurn = true ∧ (abc .round 80 80 []).PH = .round) ∧
    ((abc .idle 0 0 []).engineTurn = true ∧ (abc .idle 0 0 []).PH = .idle) :=
  ⟨⟨demo_inv _ abc_good (by decide) (by decide) (by decide) (by decide) (by decide), demo_genuine _ _ _ _ _ _, rfl, rfl⟩,
    ⟨demo_inv _ abc_good (by decide) (by decide) (by decide) (by decide) (by decide), rfl, rfl⟩, rfl, rfl⟩

/-- Steps of each agent: a host write, a START, a left and a right ROUND, FINAL. -/
theorem test_witness_StepWritesOnlyItsRow :
    ∀ s ∈ [abc .idle 0 0 [.host (.writeIn 0 0 7)], abc .idle 0 0 [.host .start], abc .round 1 1 [.engine (some .left)],
      abc .round 1 1 [.engine (some .right)], abc .round 80 80 [.engine none]],
      (nextOf (step s)).isSome = true ∧ (∀ u ∈ s.turns.head?, u.ofSpec = true) ∧ s.turns.head? ≠ some .reset := by
  decide +kernel

theorem test_witness_ConstantsNeverChange : (nextOf (step (abc .round 40 40 []))).isSome = true := by decide +kernel

/-- Two states that differ in every lane vector and buffer. -/
theorem test_witness_ControlIsDataIndependent :
    let s := abc .round 40 40 [.engine none]
    let s' := { s with
      S := quint1 1 2 3 4 5, L := quint1 1 2 3 4 5, R := quint1 1 2 3 4 5, X := List.replicate 16 [9], IN := [], OUT := [(0, 1)] }
    s'.lanes = s.lanes ∧ s'.ROM = s.ROM ∧ s'.PH = s.PH ∧ s'.JL = s.JL ∧ s'.JR = s.JR ∧ s'.turns = s.turns ∧
      s'.draws = s.draws ∧ (nextOf (step s)).isSome = true := by
  decide +kernel

theorem abc_idle_inv (ts : List Turn) : (abc .idle 0 0 ts).Inv :=
  demo_inv _ abc_good (by decide) (by decide) (by decide) (by decide) (by decide)

theorem abc4_idle_inv (ts : List Turn) : (abc4 .idle 0 0 ts).Inv :=
  demo_inv _ abc4_good (by decide) (by decide) (by decide) (by decide) (by decide)

/-- The engine turns of a call, all with the preference `p`. -/
def callOf (p : Option Branch) : List Turn := .host .start :: ((List.replicate 161 p).map Turn.engine ++ [])

/-- The one-lane instance after a call, all of `OUT` written. -/
def abcDone (ts : List Turn) : State :=
  { abc .finalized 80 80 ts with OUT := rowsIN [0x8EB208F7, 0xE05D987A, 0x9B044A8E, 0x98C6B087, 0xF15A0BFC] }

theorem abcDone_inv (ts : List Turn) : (abcDone ts).Inv := by
  have h := abc_idle_inv ts
  have out : (abcDone []).OUT.Good (5 * (abcDone []).n) := good_of_listed (by decide) (by decide)
  have full : ∀ a, a < 5 * (abcDone []).n → ((abcDone []).OUT.word? a).isSome = true := by decide
  exact ⟨h.1, h.2, h.3, h.4, h.5, Nat.le_refl 80, Nat.le_refl 80, h.8, out, (by intro hp; cases hp), (by intro hp; cases hp),
    fun _ => ⟨rfl, rfl, full⟩⟩

/-- From FINALIZED: a second call, and a second CALL script. -/
theorem test_witness_calls_from_finalized :
    ((abcDone (callOf none)).Inv ∧ (abcDone (callOf none)).Genuine ∧ (abcDone (callOf none)).PH = .finalized ∧
      (abcDone (callOf none)).turns = callOf none) ∧
    ((abcDone (callTurns ++ [])).Inv ∧ (abcDone (callTurns ++ [])).PH = .finalized ∧
      (abcDone (callTurns ++ [])).turns = callTurns ++ []) :=
  ⟨⟨abcDone_inv _, ⟨rfl, rfl⟩, rfl, rfl⟩, abcDone_inv _, rfl, rfl⟩

theorem test_witness_WholeCallComputesCompress :
    (abc .idle 0 0 (callOf none)).Inv ∧ (abc .idle 0 0 (callOf none)).Genuine ∧ (abc .idle 0 0 (callOf none)).PH = .idle ∧
    (List.replicate 161 (none : Option Branch)).length = 161 ∧ 0 < (abc .idle 0 0 (callOf none)).n ∧
    (∀ j, j < 16 → (abc .idle 0 0 (callOf none)).IN.word? (16 * 0 + j) = some (abcBlock.getD j 0)) :=
  ⟨abc_idle_inv _, demo_genuine _ _ _ _ _ _, rfl, by simp, by decide, by decide⟩

theorem test_witness_CallScriptEndsFinalized :
    (abc .idle 0 0 (callTurns ++ [])).Inv ∧ (abc .idle 0 0 (callTurns ++ [])).Genuine ∧
    (abc .idle 0 0 (callTurns ++ [])).PH = .idle ∧ (abc .idle 0 0 (callTurns ++ [])).turns = callTurns ++ [] :=
  ⟨abc_idle_inv _, demo_genuine _ _ _ _ _ _, rfl, rfl⟩

/-- Lane 0 of a one-lane instance and lane 3 of a four-lane instance, left branch first in one and
right branch first in the other. -/
theorem test_witness_DigestDependsOnOwnLaneOnly :
    (abc .idle 0 0 (callOf (some .left))).Inv ∧ (abc .idle 0 0 (callOf (some .left))).Genuine ∧
    (abc4 .idle 0 0 (callOf (some .right))).Inv ∧ (abc4 .idle 0 0 (callOf (some .right))).Genuine ∧
    0 < (abc .idle 0 0 []).n ∧ 3 < (abc4 .idle 0 0 []).n ∧
    (∀ j, j < 16 → ((abc .idle 0 0 []).IN.word? (16 * 0 + j)).isSome = true ∧
      (abc4 .idle 0 0 []).IN.word? (16 * 3 + j) = (abc .idle 0 0 []).IN.word? (16 * 0 + j)) :=
  ⟨abc_idle_inv _, demo_genuine _ _ _ _ _ _, abc4_idle_inv _, demo_genuine _ _ _ _ _ _, by decide, by decide,
    by decide +kernel⟩

theorem test_witness_InstancesShareNoState :
    (∃ sys', stepInstance 1 [abc .idle 0 0 [], abc4 .idle 0 0 []] = .next sys') ∧ (1 : Nat) ≠ 0 :=
  ⟨⟨_, rfl⟩, by decide⟩

theorem test_witness_InputWordsAreLittleEndian : (List.replicate 64 (7 : Byte)).length = 64 ∧ 0 < 16 ∧ 15 < 16 := by simp

theorem test_witness_DigestBytesAreBigEndian : ([1, 2, 3, 4, 5] : List Word).length = 5 ∧ 4 < 5 ∧ 3 < 4 := by decide

theorem test_witness_FramedBlockOfShortMessage :
    ([] : List Byte).length ≤ 55 ∧ (List.replicate 55 (0x61 : Byte)).length ≤ 55 ∧
    55 < (List.replicate 56 (0x61 : Byte)).length := by simp

end Sys2Proof.Machine
end

section
/-! The scope's rules on words, on the placement of lanes and on what can be built (00_scope.md R8, R10, R11). -/

namespace Sys2Proof.Machine

/-! ### Word functions on numbers -/

/-- The two parts of a rotation meet in no bit: the shifted word is clear below `n`, the wrapped bits stand
below `n`. -/
theorem shiftLeft_and_ushiftRight_eq_zero (x : Word) {n : Nat} (hn : n ≤ 32) :
    x <<< n &&& x >>> (32 - n) = 0#32 := by
  ext m hm
  by_cases h : m < n
  · simp [h]
  · have : x.getLsbD (32 - n + m) = false := BitVec.getLsbD_of_ge _ _ (by omega)
    simp [this]

/-- R11's rotation on numbers. The formula holds at the amount 0 too, where the wrapped part is 0. -/
theorem toNat_rotl32 (x : Word) (n : BitVec 5) :
    (rotl32 x n).toNat = x.toNat * 2 ^ n.toNat % 2 ^ 32 + x.toNat / 2 ^ (32 - n.toNat) := by
  have disjoint := shiftLeft_and_ushiftRight_eq_zero x n.isLt.le
  rw [rotl32, ← BitVec.add_eq_or_of_and_eq_zero _ _ disjoint, BitVec.toNat_add_of_and_eq_zero disjoint,
    BitVec.toNat_shiftLeft, BitVec.toNat_ushiftRight, Nat.shiftLeft_eq, Nat.shiftRight_eq_div_pow]

theorem rotl32_zero (x : Word) : rotl32 x 0 = x := by
  have wrapped : x >>> 32 = 0#32 := BitVec.ushiftRight_eq_zero le_rfl
  simp [rotl32, wrapped]

/-- Settles O12, one clause of 00_scope.md R11 after the other. -/
theorem wordFunctionsAsDefined : Obligations.WordFunctionsAsDefined :=
  ⟨BitVec.toNat_add, fun x n _ => toNat_rotl32 x n, rotl32_zero, fun _ => rfl,
    fun _ => BitVec.toNat_not, fun _ _ _ => ⟨BitVec.getLsbD_and, BitVec.getLsbD_or, BitVec.getLsbD_xor⟩⟩

/-! ### Lanes in a physical register -/

/-- `n` packed lanes fit in `32 n` bits. -/
theorem packedLanes_lt (v : LaneVec) (n : Nat) : packedLanes v n < 2 ^ (32 * n) := by
  induction n with
  | zero => simp [packedLanes]
  | succ n ih =>
    have top : (lane v n).toNat + 1 ≤ 2 ^ 32 := (lane v n).isLt
    calc packedLanes v n + (lane v n).toNat * 2 ^ (32 * n)
        < ((lane v n).toNat + 1) * 2 ^ (32 * n) := by rw [Nat.add_one_mul (lane v n).toNat]; omega
      _ ≤ 2 ^ 32 * 2 ^ (32 * n) := Nat.mul_le_mul_right _ top
      _ = 2 ^ (32 * (n + 1)) := by rw [← pow_add]; ring_nf

/-- The lane packed last stands on top. -/
theorem packedLanes_succ_top (v : LaneVec) (n : Nat) :
    packedLanes v (n + 1) / 2 ^ (32 * n) = (lane v n).toNat := by
  rw [packedLanes, Nat.add_mul_div_right _ _ (Nat.two_pow_pos _), Nat.div_eq_of_lt (packedLanes_lt v n), Nat.zero_add]

/-- Packing one more lane on top moves no bit of a lane below it. -/
theorem packedLanes_succ_below (v : LaneVec) {n i : Nat} (h : i < n) :
    packedLanes v (n + 1) / 2 ^ (32 * i) % 2 ^ 32 = packedLanes v n / 2 ^ (32 * i) % 2 ^ 32 := by
  obtain ⟨d, rfl⟩ := Nat.exists_eq_add_of_lt h
  have shift : 2 ^ (32 * (i + d + 1)) = 2 ^ (32 * d) * 2 ^ 32 * 2 ^ (32 * i) := by
    rw [← pow_add, ← pow_add]; ring_nf
  rw [packedLanes, shift, ← Nat.mul_assoc, Nat.add_mul_div_right _ _ (Nat.two_pow_pos _), ← Nat.mul_assoc,
    Nat.add_mul_mod_self_right]

/-- Bits `32i+31:32i` of the packed lanes are lane `i`. -/
theorem packedLanes_bits (v : LaneVec) {n i : Nat} (h : i < n) :
    packedLanes v n / 2 ^ (32 * i) % 2 ^ 32 = (lane v i).toNat := by
  induction n with
  | zero => omega
  | succ n ih =>
    rcases Nat.lt_succ_iff_lt_or_eq.mp h with below | rfl
    · rw [packedLanes_succ_below v below, ih below]
    · rw [packedLanes_succ_top, Nat.mod_eq_of_lt (lane v i).isLt]

/-- Settles O13, by induction on the number of lanes packed. -/
theorem laneOccupiesItsBits : Obligations.LaneOccupiesItsBits :=
  fun v n _ h => ⟨packedLanes_lt v n, packedLanes_bits v h⟩

/-! ### What can be built -/

theorem ofCount?_count (w : LaneWidth) : LaneWidth.ofCount? w.count = some w := by
  cases w <;> rfl

/-- R8's three lane counts are the counts of the three widths. -/
theorem exists_count_eq_iff (n : Nat) : (∃ w : LaneWidth, w.count = n) ↔ n = 1 ∨ n = 4 ∨ n = 8 := by
  constructor
  · rintro ⟨w, rfl⟩
    cases w <;> simp [LaneWidth.count]
  · rintro (rfl | rfl | rfl)
    exacts [⟨.one, rfl⟩, ⟨.four, rfl⟩, ⟨.eight, rfl⟩]

theorem ofCount?_eq_none {n : Nat} (h : ¬ (n = 1 ∨ n = 4 ∨ n = 8)) : LaneWidth.ofCount? n = none := by
  obtain ⟨h1, h4, h8⟩ : n ≠ 1 ∧ n ≠ 4 ∧ n ≠ 8 := by simpa using h
  simp [LaneWidth.ofCount?, h1, h4, h8]

/-- At a supported lane count the check on the ROM decides. -/
theorem instantiate_count (w : LaneWidth) (rom : List (BitVec 48)) :
    instantiate w.count rom = if romWf rom then .ok (State.resetOf w rom) else .error .romNotWellFormed := by
  rw [instantiate, ofCount?_count]

theorem instantiate_of_not_supported {n : Nat} (rom : List (BitVec 48)) (h : ¬ (n = 1 ∨ n = 4 ∨ n = 8)) :
    instantiate n rom = .error .lanesNotSupported := by
  rw [instantiate, ofCount?_eq_none h]

/-- What is built is the reset state of one of the three widths, with a ROM that passes the check. -/
theorem of_instantiate_eq_ok {n : Nat} {rom : List (BitVec 48)} {s : State} (h : instantiate n rom = .ok s) :
    romWf rom = true ∧ ∃ w : LaneWidth, w.count = n ∧ State.resetOf w rom = s := by
  by_cases hn : n = 1 ∨ n = 4 ∨ n = 8
  · obtain ⟨w, rfl⟩ := (exists_count_eq_iff n).mpr hn
    rw [instantiate_count] at h
    split at h
    · exact ⟨‹_›, w, rfl, by injection h⟩
    · cases h
  · rw [instantiate_of_not_supported rom hn] at h
    cases h

/-- At a supported lane count a ROM that passes the check is built, with that many lanes. -/
theorem exists_instantiate_eq_ok {n : Nat} {rom : List (BitVec 48)} (hn : n = 1 ∨ n = 4 ∨ n = 8) (hrom : romWf rom = true) :
    ∃ s, instantiate n rom = .ok s ∧ s.n = n := by
  obtain ⟨w, rfl⟩ := (exists_count_eq_iff n).mpr hn
  exact ⟨State.resetOf w rom, by rw [instantiate_count, if_pos hrom], rfl⟩

/-- Settles O3, by what a built state is and by the answer at a supported and at any other lane count. -/
theorem onlyThreeLaneCountsBuild : Obligations.OnlyThreeLaneCountsBuild := by
  refine ⟨fun n rom s h => ?built, fun n rom h1 h4 h8 => ?badCount, fun n rom hn hrom => ?badRom,
    fun n rom => exists_instantiate_eq_ok, fun n hn => exists_instantiate_eq_ok hn test_rom_accepted⟩
  case built =>
    obtain ⟨hrom, w, rfl, rfl⟩ := of_instantiate_eq_ok h
    exact ⟨(exists_count_eq_iff _).mp ⟨w, rfl⟩, hrom, rfl, rfl, rfl⟩
  case badCount =>
    exact instantiate_of_not_supported rom (by simp [h1, h4, h8])
  case badRom =>
    obtain ⟨w, rfl⟩ := (exists_count_eq_iff n).mpr hn
    simp [instantiate_count, hrom]

end Sys2Proof.Machine
end

section
/-! What every step keeps of the state (10_state.md R21 to R26), and the read of STATUS (R25, R29). -/

namespace Sys2Proof.Machine

/-! ### Updates of what the invariant does not speak of -/

theorem State.Inv.endTurn {s : State} (h : s.Inv) : s.endTurn.Inv := { h with }

theorem State.Inv.withReply {s : State} (h : s.Inv) (r : Reply) : (s.withReply r).Inv := { h with }

theorem State.Inv.drew {s : State} (h : s.Inv) (k : Nat) : (s.drew k).Inv := { h with }

theorem State.Inv.withResult {s : State} (h : s.Inv) (v : LaneVec) : (s.withResult v).Inv := { h with }

/-! ### The buffers -/

/-- The address of lane `i`, index `j` stands in the buffer (20_memory.md R51). -/
theorem effectiveAddress_lt {row n i j : Nat} (hi : i < n) (hj : j < row) : effectiveAddress row i j < row * n :=
  calc row * i + j < row * (i + 1) := Nat.add_lt_add_left hj _
    _ ≤ row * n := Nat.mul_le_mul_left row hi

theorem State.Inv.withIN {s : State} (h : s.Inv) {m : Memory} (hm : m.Good (16 * s.n)) : (s.withIN m).Inv :=
  { h with input := hm }

/-- A word that has been written stays written when rows are stored. -/
theorem isSome_word?_storeRows {n row j a : Nat} {m : Memory} (v : LaneVec) (hj : j < row)
    (h : (m.word? a).isSome = true) : ((storeRows n row m j v).word? a).isSome = true := by
  rw [word?_storeRows _ _ _ _ _ hj]
  split
  · rfl
  · exact h

theorem State.Inv.withOUT_storeRows {s : State} (h : s.Inv) {j : Nat} (v : LaneVec) (hj : j < 5) :
    (s.withOUT (storeRows s.n 5 s.OUT j v)).Inv :=
  { h with
    output := storeRows_good v h.output hj
    finalized := fun hp =>
      have ⟨hl, hr, written⟩ := h.finalized hp
      ⟨hl, hr, fun a ha => isSome_word?_storeRows v hj (written a ha)⟩ }

/-! ### The steps of the engine and hardware reset -/

/-- A ROUND step counts one round of a branch that had one left, and the phase is ROUND after it. -/
theorem State.Inv.roundOn {s : State} (h : s.Inv) {b : Branch} (hb : s.count b < 80) (fn : BaseFn) (k : Word)
    (idx : BitVec 4) (rot : BitVec 5) : (roundOn b fn k idx rot s).Inv := by
  cases b with
  | left =>
    rw [roundOn_left]
    exact { h with
      left := sized_roundPrimitive fn k _ rot h.left
      leftCount := hb
      initialized := fun hp => nomatch hp
      round := fun _ => by dsimp only; omega
      finalized := fun hp => nomatch hp }
  | right =>
    rw [roundOn_right]
    exact { h with
      right := sized_roundPrimitive fn k _ rot h.right
      rightCount := hb
      initialized := fun hp => nomatch hp
      round := fun _ => by dsimp only; omega
      finalized := fun hp => nomatch hp }

/-- START clears the counters and gives every register its lanes; the buffers stay. -/
theorem State.Inv.start {s : State} (h : s.Inv) : (start s).Inv :=
  { h with
    svec := sized_ivQuint s
    left := sized_ivQuint s
    right := sized_ivQuint s
    messages := by simp [Machine.start, gatherMessage]
    messageLanes := by simp [Machine.start, gatherMessage, State.n]
    leftCount := Nat.zero_le 80
    rightCount := Nat.zero_le 80
    initialized := fun _ => ⟨rfl, rfl⟩
    round := fun hp => nomatch hp
    finalized := fun hp => nomatch hp }

/-- FINAL, where it is enabled, finds both counters at 80 and writes every word of `OUT`. -/
theorem State.Inv.final {s : State} (h : s.Inv) (he : s.finalEnabled = true) : (final s).Inv := by
  obtain ⟨-, hl, hr⟩ := finalEnabled_iff.mp he
  exact { h with
    svec := sized_combine s.n s.S s.L s.R
    output := storeDigest_good _ h.output
    initialized := fun hp => nomatch hp
    round := fun hp => nomatch hp
    finalized := fun _ => ⟨hl, hr, fun a ha => Option.isSome_of_eq_some (word?_storeDigest s.n _ s.OUT ha)⟩ }

/-- Whatever values hardware reset leaves, the registers have their lanes, the counters stand in 0..80 and
the buffers are empty (70_reset_and_hazards.md R180). -/
theorem inv_hardwareReset (s : State) : (hardwareReset s).Inv where
  svec := sized_unspecifiedQuint _ _
  left := sized_unspecifiedQuint _ _
  right := sized_unspecifiedQuint _ _
  messages := by simp [hardwareReset]
  messageLanes := by simp [hardwareReset, State.n]
  leftCount := Nat.le_of_lt_succ (Config.unspecifiedCount s.draws).isLt
  rightCount := Nat.le_of_lt_succ (Config.unspecifiedCount (s.draws + 1)).isLt
  input := Memory.Good.nil _
  output := Memory.Good.nil _
  initialized := fun hp => nomatch hp
  round := fun hp => nomatch hp
  finalized := fun hp => nomatch hp

/-! ### Instructions, host actions, steps -/

theorem State.Inv.exec {i : Instr} {s t : State} (h : s.Inv) (he : exec i s = .next t) : t.Inv := by
  rcases exec_cases he with ⟨d, v, -, rfl⟩ | rfl | ⟨b, fn, k, idx, rot, -, hb, rfl⟩
  · exact (h.drew d).withResult v
  · exact h.withOUT_storeRows _ s.port.outIdx.isLt
  · exact h.roundOn (enabled_of_nextBranch hb).2 fn k idx rot

theorem State.Inv.hostStep {a : HostAction} {s t : State} (h : s.Inv) (ha : hostStep a s = .next t) : t.Inv := by
  rcases hostStep_cases ha with ⟨i, j, w, -, -, hi, hj, rfl⟩ | ⟨-, -, rfl⟩ | ⟨-, rfl⟩ | ⟨i, j, -, -, -, -, rfl⟩
  · exact h.withIN (h.input.put w (effectiveAddress_lt hi hj))
  · exact h.start
  · exact h.withReply _
  · exact (h.withReply _).drew 1

/-- Settles O43, by the five things a step can do: an instruction, FINAL, a host action, reset, waiting. -/
theorem stepKeepsInvariant : Obligations.StepKeepsInvariant := by
  intro s t h hs
  rcases step_cases hs with ⟨c, i, u, -, -, hu, rfl⟩ | ⟨-, he, rfl⟩ | ⟨a, u, -, hu, rfl⟩ | ⟨-, rfl⟩ | ⟨-, rfl⟩
  · exact (h.exec hu).endTurn
  · exact (h.final he).endTurn
  · exact (h.hostStep hu).endTurn
  · exact (inv_hardwareReset s).endTurn
  · exact h.endTurn

/-! ### The read of STATUS -/

/-- With a host turn at the head, the step is the host's action and the end of its turn. -/
theorem step_of_host {s : State} {a : HostAction} {rest : List Turn} (h : s.turns = .host a :: rest) :
    step s = afterNext State.endTurn (hostStep a s) := by
  have next : nextAction s = .host a := by rw [nextAction, h]
  rw [step, next, act]

theorem done_iff {s : State} : done s = true ↔ s.PH = .finalized := by
  unfold done
  cases s.PH <;> simp

/-- FINALIZED is the only phase with code 11. -/
theorem Phase.code_eq_three_iff {p : Phase} : p.code = 0b11 ↔ p = .finalized := by
  cases p <;> decide

/-- Settles O40, with the code of table T-10.2 as the reply. -/
theorem statusReturnsThePhaseCode : Obligations.StatusReturnsThePhaseCode := by
  intro s rest ht
  have code {p : Phase} (hp : s.PH = p) : statusCode s = p.code := congrArg Phase.code hp
  refine ⟨statusCode s, ?step, code, code, code, code, done_iff.trans Phase.code_eq_three_iff.symm⟩
  case step =>
    rw [step_of_host ht]
    simp [hostStep, hostReadStatus, afterNext, State.endTurn, State.withReply, ht]

end Sys2Proof.Machine
end

section
/-! The buffers as the host reaches them, the constants, and the byte order of words and bytes
(20_memory.md R51, R58, R59, R63). -/

namespace Sys2Proof.Machine

/-! ### The host's accesses to the buffers -/

/-- Outside a call, a host write with indices in range puts its word into `IN`. -/
theorem hostStep_writeIn {s : State} (hc : s.inCall = false) {i j : Nat} (hi : i < s.n) (hj : j < 16) (w : Word) :
    hostStep (.writeIn i j w) s = .next (s.withIN (s.IN.put (effectiveAddress 16 i j) w)) := by
  simp [hostStep, hostWriteIn, HostAction.wf, hc, hi, hj]

/-- In FINALIZED, a host read with indices in range replies with what `OUT` reads as there. -/
theorem hostStep_readOut {s : State} (hp : s.PH = .finalized) {i j : Nat} (hi : i < s.n) (hj : j < 5) :
    hostStep (.readOut i j) s =
      .next ((s.withReply (.word (readWord s.OUT (effectiveAddress 5 i j) s.draws))).drew 1) := by
  simp [hostStep, hostReadOut, HostAction.wf, hp, hi, hj]

/-- A word that has been written reads as written, whatever the draw. -/
theorem readWord_of_word? {m : Memory} {a : Nat} {w : Word} (h : m.word? a = some w) (d : Nat) :
    readWord m a d = w := by
  rw [readWord, h, Option.getD_some]

/-- Settles O38, with the memory `IN` becomes when the word is put at its effective address. -/
theorem hostWritesOneInputWord : Obligations.HostWritesOneInputWord := by
  intro s i j w rest hp hi hj ht
  refine ⟨s.IN.put (effectiveAddress 16 i j) w, ?step, ?same, fun a ha => ?other, Memory.wf_put _ w⟩
  case step =>
    rw [step_of_host ht, hostStep_writeIn (not_inCall_iff.mpr hp) hi hj]
    simp [afterNext, State.endTurn, State.withIN, ht]
  case same => rw [Memory.word?_put, if_pos rfl]
  case other => rw [Memory.word?_put, if_neg ha]

/-- Settles O39, with the read of `OUT` at the effective address as the reply. -/
theorem hostReadsOneOutputWord : Obligations.HostReadsOneOutputWord := by
  intro s i j rest hp hi hj ht
  refine ⟨readWord s.OUT (effectiveAddress 5 i j) s.draws, s.draws + 1, ?step, fun w hw => readWord_of_word? hw _⟩
  rw [step_of_host ht, hostStep_readOut hp hi hj]
  simp [afterNext, State.endTurn, State.withReply, State.drew, ht]

/-! ### The constants (00_scope.md R6, 20_memory.md R63) -/

/-- The state `t` has the constants of `s`. -/
def State.SameConstants (s t : State) : Prop := t.ROM = s.ROM ∧ t.IVROM = s.IVROM ∧ t.lanes = s.lanes

theorem State.SameConstants.endTurn {s t : State} (h : s.SameConstants t) : s.SameConstants t.endTurn := h

theorem sameConstants_roundOn (b : Branch) (fn : BaseFn) (k : Word) (idx : BitVec 4) (rot : BitVec 5) (s : State) :
    s.SameConstants (roundOn b fn k idx rot s) := by
  simp [State.SameConstants, roundOn]

/-- An instruction writes the port, `OUT`, or what a ROUND step writes. -/
theorem sameConstants_of_exec {i : Instr} {s t : State} (h : exec i s = .next t) : s.SameConstants t := by
  rcases exec_cases h with ⟨d, v, -, rfl⟩ | rfl | ⟨b, fn, k, idx, rot, -, -, rfl⟩
  · exact ⟨rfl, rfl, rfl⟩
  · exact ⟨rfl, rfl, rfl⟩
  · exact sameConstants_roundOn b fn k idx rot s

/-- No host action of table T-10.2 writes a constant. -/
theorem sameConstants_of_hostStep {a : HostAction} {s t : State} (h : hostStep a s = .next t) : s.SameConstants t := by
  rcases hostStep_cases h with ⟨i, j, w, -, -, -, -, rfl⟩ | ⟨-, -, rfl⟩ | ⟨-, rfl⟩ | ⟨i, j, -, -, -, -, rfl⟩ <;>
    exact ⟨rfl, rfl, rfl⟩

/-- Settles O49, by the five things a step can do: an instruction, FINAL, a host action, reset, waiting. -/
theorem constantsNeverChange : Obligations.ConstantsNeverChange := by
  intro s t h
  rcases step_cases h with ⟨c, i, u, -, -, hu, rfl⟩ | ⟨-, -, rfl⟩ | ⟨a, u, -, hu, rfl⟩ | ⟨-, rfl⟩ | ⟨-, rfl⟩
  · exact (sameConstants_of_exec hu).endTurn
  · exact ⟨rfl, rfl, rfl⟩
  · exact (sameConstants_of_hostStep hu).endTurn
  · exact ⟨rfl, rfl, rfl⟩
  · exact ⟨rfl, rfl, rfl⟩

/-! ### The input words of a byte string -/

/-- The value of a packed word, its first byte least significant. -/
theorem toNat_packWord (m0 m1 m2 m3 : Byte) :
    (packWord m0 m1 m2 m3).toNat = m0.toNat + 2 ^ 8 * m1.toNat + 2 ^ 16 * m2.toNat + 2 ^ 24 * m3.toNat := by
  rw [packWord, toNat_append_eq, toNat_append_eq, toNat_append_eq]
  ring

/-- The bytes of a packed word are the bytes it was packed from. -/
theorem byteOf_packWord (m0 m1 m2 m3 : Byte) {k : Nat} (hk : k < 4) :
    byteOf (packWord m0 m1 m2 m3) k = [m0, m1, m2, m3].getD k 0 := by
  have h0 := m0.isLt
  have h1 := m1.isLt
  have h2 := m2.isLt
  have h3 := m3.isLt
  apply BitVec.eq_of_toNat_eq
  rw [byteOf, BitVec.extractLsb'_toNat, toNat_packWord, Nat.shiftRight_eq_div_pow]
  match k, hk with
  | 0, _ | 1, _ | 2, _ | 3, _ =>
    simp
    omega

/-- A byte string from which `packBytes` takes no word has fewer than four bytes. -/
theorem length_lt_four_of_not_cons {m : List Byte}
    (short : ∀ m0 m1 m2 m3 rest, m = m0 :: m1 :: m2 :: m3 :: rest → False) : m.length < 4 := by
  match m, short with
  | [], _ | [_], _ | [_, _], _ | [_, _, _], _ => simp
  | m0 :: m1 :: m2 :: m3 :: rest, short => exact (short m0 m1 m2 m3 rest rfl).elim

/-- Every four whole bytes give a word. -/
theorem length_packBytes (m : List Byte) : (packBytes m).length = m.length / 4 := by
  fun_induction packBytes m with
  | case1 m0 m1 m2 m3 rest ih => simp only [List.length_cons, ih]; omega
  | case2 m short => exact (Nat.div_eq_of_lt (length_lt_four_of_not_cons short)).symm

/-- Word `j` is packed from bytes `4j` to `4j + 3`, where the string has them. -/
theorem getD_packBytes {m : List Byte} {j : Nat} (h : 4 * j + 3 < m.length) :
    (packBytes m).getD j 0 =
      packWord (m.getD (4 * j) 0) (m.getD (4 * j + 1) 0) (m.getD (4 * j + 2) 0) (m.getD (4 * j + 3) 0) := by
  fun_induction packBytes m generalizing j with
  | case1 m0 m1 m2 m3 rest ih =>
    cases j with
    | zero => rfl
    | succ j => exact ih (by simp only [List.length_cons] at h; omega)
  | case2 m short =>
    have := length_lt_four_of_not_cons short
    omega

/-- Settles O55, by the word that each four bytes give. -/
theorem inputWordsAreLittleEndian : Obligations.InputWordsAreLittleEndian := by
  intro m hm
  refine ⟨by rw [length_packBytes, hm], fun j hj => ?_⟩
  rw [getD_packBytes (by omega), toNat_packWord]

/-! ### The digest bytes of output words -/

/-- Every word gives four bytes. -/
theorem length_digestBytes (ws : List Word) : (digestBytes ws).length = 4 * ws.length := by
  simp [digestBytes, outWordBytes, List.length_flatMap, Nat.mul_comm]

/-- The first byte of a word is its most significant one. -/
theorem getD_outWordBytes (w : Word) {k : Nat} (hk : k < 4) : (outWordBytes w).getD k 0 = byteOf w (3 - k) := by
  match k, hk with
  | 0, _ | 1, _ | 2, _ | 3, _ => rfl

/-- Byte `4j + k` of the digest is byte `3 - k` of word `j`. -/
theorem getD_digestBytes {ws : List Word} {j k : Nat} (hj : j < ws.length) (hk : k < 4) :
    (digestBytes ws).getD (4 * j + k) 0 = byteOf (ws.getD j 0) (3 - k) := by
  induction ws generalizing j with
  | nil => cases hj
  | cons w ws ih =>
    have split : digestBytes (w :: ws) = outWordBytes w ++ digestBytes ws := List.flatMap_cons
    have four : (outWordBytes w).length = 4 := rfl
    rw [split]
    cases j with
    | zero =>
      rw [List.getD_append _ _ _ _ (by omega), Nat.mul_zero, Nat.zero_add, getD_outWordBytes w hk, List.getD_cons_zero]
    | succ j =>
      rw [List.getD_append_right _ _ _ _ (by omega), four, show 4 * (j + 1) + k - 4 = 4 * j + k by omega,
        ih (Nat.lt_of_succ_lt_succ hj), List.getD_cons_succ]

/-- The byte swap packs a word's bytes in the opposite order. -/
theorem bswap32_eq_packWord (w : Word) : bswap32 w = packWord (byteOf w 3) (byteOf w 2) (byteOf w 1) (byteOf w 0) := rfl

/-- Byte `k` of a swapped word is byte `3 - k` of the word. -/
theorem byteOf_bswap32 (w : Word) {k : Nat} (hk : k < 4) : byteOf (bswap32 w) k = byteOf w (3 - k) := by
  rw [bswap32_eq_packWord, byteOf_packWord _ _ _ _ hk]
  exact getD_outWordBytes w hk

/-- Settles O56, by the place of each byte of a word and by the byte swap. -/
theorem digestBytesAreBigEndian : Obligations.DigestBytesAreBigEndian := by
  refine ⟨fun ws hw => ⟨by rw [length_digestBytes, hw], fun j k hj hk => ?bigEndian⟩, fun ws j k hj hk => ?swapped⟩
  case bigEndian =>
    rw [getD_digestBytes (hw ▸ hj) hk, byteOf, show 8 * (3 - k) = 24 - 8 * k by omega]
  case swapped =>
    have word : (ws.map bswap32).getD j 0 = bswap32 (ws.getD j 0) := by simp [hj]
    rw [getD_digestBytes (by simpa using hj) hk, word, byteOf_bswap32 _ (by omega), Nat.sub_sub_self (by omega)]

end Sys2Proof.Machine
end

section
/-! The encoding (30_encoding.md R70 to R77): decoder and encoder undo each other, and exactly the
reserved encodings are invalid. -/

namespace Sys2Proof.Machine

/-! ### Codes of each format decode to what they name -/

theorem encode_function (fn : BaseFn) : encode (.function fn) = .f fn.code := by cases fn <;> rfl

theorem encode_round (fn : BaseFn) (k : Word) (idx : BitVec 4) (rot : BitVec 5) :
    encode (.round fn k idx rot) = .s (encodeEntry fn k idx rot) := by cases fn <;> rfl

theorem entry?_round (fn : BaseFn) (k : Word) (idx : BitVec 4) (rot : BitVec 5) :
    (Instr.round fn k idx rot).entry? = some ⟨fn, k, idx, rot⟩ := by cases fn <;> rfl

/-- Every field of an encoded entry is read back. -/
theorem decode_encodeEntry (fn : BaseFn) (k : Word) (idx : BitVec 4) (rot : BitVec 5) :
    decode (.s (encodeEntry fn k idx rot)) = .ok (.round fn k idx rot) := by
  simp [decode, decodeEntry, decodeFn, entryRsv1_encodeEntry, entryRsv0_encodeEntry, entryFn_encodeEntry,
    entryK_encodeEntry, entryIdx_encodeEntry, entryRot_encodeEntry, BaseFn.ofNumber?_number]

/-- Settles O6: the codes of formats P and F are a finite table, an entry is read back field by field. -/
theorem decodeOfEncodeIsIdentity : Obligations.DecodeOfEncodeIsIdentity := by
  intro i
  cases i with
  | roundF1 k idx rot => exact decode_encodeEntry .f1 k idx rot
  | roundF2 k idx rot => exact decode_encodeEntry .f2 k idx rot
  | roundF3 k idx rot => exact decode_encodeEntry .f3 k idx rot
  | roundF4 k idx rot => exact decode_encodeEntry .f4 k idx rot
  | roundF5 k idx rot => exact decode_encodeEntry .f5 k idx rot
  | broadcast | loadRows | storeRows | and | or | xor | not | add32 | rotl | byteswap => rfl
  | f1 | f2 | f3 | f4 | f5 => rfl

/-! ### What a code that decodes must look like -/

theorem decode_p_eq_ok_iff {w : BitVec 4} {i : Instr} : decode (.p w) = .ok i ↔ decodeLvop w = some i := by
  cases h : decodeLvop w <;> simp [decode, h]

theorem decode_f_eq_ok_iff {w : BitVec 3} {i : Instr} :
    decode (.f w) = .ok i ↔ ∃ fn, decodeFn w = some fn ∧ .function fn = i := by
  cases h : decodeFn w <;> simp [decode, h]

/-- A 48-bit word decodes exactly when its reserved bits are 0 and its `fn` names a base function; the
operands are its fields. -/
theorem decode_s_eq_ok_iff {w : BitVec 48} {i : Instr} :
    decode (.s w) = .ok i ↔ entryRsv1 w = 0 ∧ entryRsv0 w = 0 ∧
      ∃ fn, decodeFn (entryFn w) = some fn ∧ .round fn (entryK w) (entryIdx w) (entryRot w) = i := by
  show decodeEntry w = .ok i ↔ _
  rw [decodeEntry]
  split
  case isTrue h1 => exact ⟨nofun, fun h => absurd h.1 h1⟩
  case isFalse h1 =>
    split
    case isTrue h0 => exact ⟨nofun, fun h => absurd h.2.1 h0⟩
    case isFalse h0 =>
      rw [not_not] at h1 h0
      cases hf : decodeFn (entryFn w) <;> simp [h1, h0]

/-- A code is invalid when it decodes to no instruction. -/
theorem exists_decode_error_iff (c : Code) : (∃ e, decode c = .error e) ↔ ¬ ∃ i, decode c = .ok i := by
  cases decode c <;> simp

/-! ### The fields of an entry as numbers (30_encoding.md table T-30.1) -/

theorem toNat_entryRsv1 (w : BitVec 48) : (entryRsv1 w).toNat = w.toNat / 2 ^ 47 % 2 := by
  rw [entryRsv1, BitVec.extractLsb'_toNat, Nat.shiftRight_eq_div_pow]

theorem toNat_entryFn (w : BitVec 48) : (entryFn w).toNat = w.toNat / 2 ^ 44 % 8 := by
  rw [entryFn, BitVec.extractLsb'_toNat, Nat.shiftRight_eq_div_pow]

theorem toNat_entryK (w : BitVec 48) : (entryK w).toNat = w.toNat / 2 ^ 12 % 2 ^ 32 := by
  rw [entryK, BitVec.extractLsb'_toNat, Nat.shiftRight_eq_div_pow]

theorem toNat_entryIdx (w : BitVec 48) : (entryIdx w).toNat = w.toNat / 2 ^ 8 % 16 := by
  rw [entryIdx, BitVec.extractLsb'_toNat, Nat.shiftRight_eq_div_pow]

theorem toNat_entryRsv0 (w : BitVec 48) : (entryRsv0 w).toNat = w.toNat / 2 ^ 5 % 8 := by
  rw [entryRsv0, BitVec.extractLsb'_toNat, Nat.shiftRight_eq_div_pow]

theorem toNat_entryRot (w : BitVec 48) : (entryRot w).toNat = w.toNat % 32 := by
  rw [entryRot, BitVec.extractLsb'_toNat, Nat.shiftRight_zero]

/-- With the reserved bits 0, the other four fields hold every bit of the word. -/
theorem encodeEntry_entry_fields {w : BitVec 48} {fn : BaseFn} (h1 : entryRsv1 w = 0) (h0 : entryRsv0 w = 0)
    (hf : fn.number = (entryFn w).toNat) : encodeEntry fn (entryK w) (entryIdx w) (entryRot w) = w := by
  have rsv1 : w.toNat / 2 ^ 47 % 2 = 0 := by rw [← toNat_entryRsv1, h1]; rfl
  have rsv0 : w.toNat / 2 ^ 5 % 8 = 0 := by rw [← toNat_entryRsv0, h0]; rfl
  have := w.isLt
  apply BitVec.eq_of_toNat_eq
  rw [encodeEntry_toNat, hf, toNat_entryFn, toNat_entryK, toNat_entryIdx, toNat_entryRot]
  omega

/-! ### Encoding what was decoded -/

/-- The ten codes of table T-30.2, each the code of the primitive it names. -/
theorem encode_of_decodeLvop : ∀ w : BitVec 4, ∀ i ∈ decodeLvop w, encode i = .p w := by decide

theorem number_of_decodeFn {w : BitVec 3} {fn : BaseFn} (h : decodeFn w = some fn) : fn.number = w.toNat :=
  BaseFn.number_of_ofNumber? h

theorem code_of_decodeFn {w : BitVec 3} {fn : BaseFn} (h : decodeFn w = some fn) : fn.code = w :=
  BitVec.eq_of_toNat_eq (by rw [fn.code_toNat, number_of_decodeFn h])

/-- Settles O7, format by format. -/
theorem encodeOfDecodeIsIdentity : Obligations.EncodeOfDecodeIsIdentity := by
  intro c i h
  cases c with
  | p w => exact encode_of_decodeLvop w i (decode_p_eq_ok_iff.mp h)
  | f w =>
    obtain ⟨fn, hf, rfl⟩ := decode_f_eq_ok_iff.mp h
    rw [encode_function, code_of_decodeFn hf]
  | s w =>
    obtain ⟨h1, h0, fn, hf, rfl⟩ := decode_s_eq_ok_iff.mp h
    rw [encode_round, encodeEntry_entry_fields h1 h0 (number_of_decodeFn hf)]

/-- Settles O9: the operands are the word's fields, and encoding them gives the word back (O7). -/
theorem entryFieldsStandInTheirBits : Obligations.EntryFieldsStandInTheirBits := by
  intro w i h
  obtain ⟨h1, h0, fn, hf, rfl⟩ := decode_s_eq_ok_iff.mp h
  have number := number_of_decodeFn hf
  refine ⟨⟨fn, entryK w, entryIdx w, entryRot w⟩, entry?_round _ _ _ _, rfl, number.trans (toNat_entryFn w),
    toNat_entryK w, toNat_entryIdx w, toNat_entryRot w, ?value⟩
  case value => rw [← encodeEntry_toNat, encodeEntry_entry_fields h1 h0 number]

/-! ### The reserved encodings (30_encoding.md R77) -/

theorem decodeLvop_eq_none_iff : ∀ w : BitVec 4, decodeLvop w = none ↔ 10 ≤ w.toNat := by decide

theorem decodeFn_eq_none_iff (w : BitVec 3) : decodeFn w = none ↔ w.toNat = 0 ∨ w.toNat = 6 ∨ w.toNat = 7 := by
  have := w.isLt
  rw [decodeFn, BaseFn.ofNumber?_eq_none]
  omega

theorem exists_decode_p_error_iff (w : BitVec 4) : (∃ e, decode (.p w) = .error e) ↔ 10 ≤ w.toNat := by
  rw [exists_decode_error_iff, ← decodeLvop_eq_none_iff]
  simp [decode_p_eq_ok_iff, Option.eq_none_iff_forall_ne_some]

theorem exists_decode_f_error_iff (w : BitVec 3) :
    (∃ e, decode (.f w) = .error e) ↔ w.toNat = 0 ∨ w.toNat = 6 ∨ w.toNat = 7 := by
  rw [exists_decode_error_iff, ← decodeFn_eq_none_iff]
  simp [decode_f_eq_ok_iff, Option.eq_none_iff_forall_ne_some]

theorem exists_decode_s_ok_iff (w : BitVec 48) :
    (∃ i, decode (.s w) = .ok i) ↔ entryRsv1 w = 0 ∧ entryRsv0 w = 0 ∧ decodeFn (entryFn w) ≠ none := by
  simp [decode_s_eq_ok_iff, Option.ne_none_iff_exists']

theorem exists_decode_s_error_iff (w : BitVec 48) :
    (∃ e, decode (.s w) = .error e) ↔
      (entryFn w).toNat = 0 ∨ (entryFn w).toNat = 6 ∨ (entryFn w).toNat = 7 ∨ entryRsv1 w ≠ 0 ∨ entryRsv0 w ≠ 0 := by
  rw [exists_decode_error_iff, exists_decode_s_ok_iff, Ne, decodeFn_eq_none_iff]
  tauto

/-- The check on a ROM accepts legal entries only (42_round_engine.md R139). -/
theorem decode_of_romWf {rom : List (BitVec 48)} (h : romWf rom = true) {w : BitVec 48} (hw : w ∈ rom) :
    ∃ i, decode (.s w) = .ok i := by
  cases hes : rom.mapM entryOfWord with
  | none => simp [romWf, hes] at h
  | some es =>
    have mem : entryOfWord w ∈ es.map some := (mapM_eq_some_iff rom es).mp hes ▸ List.mem_map_of_mem hw
    obtain ⟨e, -, he⟩ := List.mem_map.mp mem
    exact ⟨_, (entryOfWord_eq_some_iff w e).mp he.symm⟩

theorem length_romTable : romTable.length = 160 := by simp [romTable]

/-- With the ROMs at their contents, the engine's next step is a ROM entry, FINAL or none. -/
theorem engineAction_of_genuine {s : State} (hg : s.Genuine) :
    (∃ w, engineAction s = .run (.s w)) ∨ engineAction s = .final ∨ engineAction s = .idle := by
  cases hb : s.nextBranch with
  | some b =>
    obtain ⟨w, hw, -⟩ := romTable_entry b (enabled_of_nextBranch hb).2
    have fetched : s.ROM[s.romAddress b]? = some w := by rw [hg.rom, ← hw]; cases b <;> rfl
    exact .inl ⟨w, by simp [engineAction, hb, fetchEntry, fetched]⟩
  | none =>
    right
    cases hf : s.finalEnabled <;> simp [engineAction, hb, hf]

/-- Settles O8: the invalid codes of each format, then what the check on a ROM and the schedule ROM give. -/
theorem reservedEncodingsAreInvalid : Obligations.ReservedEncodingsAreInvalid := by
  refine ⟨exists_decode_s_error_iff, exists_decode_p_error_iff, exists_decode_f_error_iff, ?refused,
    fun a ha => List.getElem?_eq_none (length_romTable ▸ ha), fun w => decode_of_romWf test_rom_accepted, ?fetch⟩
  case refused =>
    rintro rom ⟨w, hw, invalid⟩
    rw [← Bool.not_eq_true]
    exact fun h => (exists_decode_error_iff _).mp invalid (decode_of_romWf h hw)
  case fetch =>
    intro s hg
    rcases engineAction_of_genuine hg with ⟨w, h⟩ | h | h <;> simp [h]

end Sys2Proof.Machine
end

section
/-! What is fetched, and that a step runs it (30_encoding.md R73). -/

namespace Sys2Proof.Machine

/-! ### What is next in each turn -/

/-- On the engine's turn, the ROM word of the branch taken is what runs next. -/
theorem nextAction_of_nextBranch {s : State} {b : Branch} {w : BitVec 48} (he : s.engineTurn = true)
    (hb : s.nextBranch = some b) (hw : s.ROM[s.romAddress b]? = some w) : nextAction s = .run (.s w) := by
  simp [nextAction_engine he, engineAction, hb, fetchEntry, hw]

theorem nextAction_of_lvop {s : State} {w : BitVec 4} {rest : List Turn} (h : s.turns = .lvop w :: rest) :
    nextAction s = .run (.p w) := by
  rw [nextAction, h]

theorem nextAction_of_fn {s : State} {w : BitVec 3} {rest : List Turn} (h : s.turns = .fn w :: rest) :
    nextAction s = .run (.f w) := by
  rw [nextAction, h]

/-- Settles O41: the step's action is `exec` of the decoded instruction. -/
theorem stepRunsTheDecodedInstruction : Obligations.StepRunsTheDecodedInstruction := by
  refine ⟨fun s c i hn hd => ?step, fun s b w => nextAction_of_nextBranch, fun s w rest => nextAction_of_lvop,
    fun s w rest => nextAction_of_fn⟩
  have action : act (.run c) s = exec i s := by simp [act, hd]
  rw [step, hn, action]
  rfl

/-! ### A placed code -/

/-- With an entry placed, a call is in progress: the one that was, or one in a fitting phase. -/
theorem inCall_placeCode (s : State) (w : BitVec 48) : (placeCode s (.s w)).inCall = true := by
  rw [inCall_iff]
  dsimp only [placeCode]
  generalize (if s.JL < 80 then s.JL else 0) = j
  split
  case isTrue hc => exact inCall_iff.mp hc
  case isFalse =>
    split
    · exact .inl rfl
    · exact .inr rfl

/-- An entry is placed where the left branch has a round left. -/
theorem roundEnabled_left_placeCode (s : State) (w : BitVec 48) : (placeCode s (.s w)).roundEnabled .left = true := by
  have count : (if s.JL < 80 then s.JL else 0) < 80 := by split <;> omega
  exact roundEnabled_iff.mpr ⟨inCall_placeCode s w, count⟩

/-- The ROM holds the placed entry at the address of the next left entry. -/
theorem getElem?_placeCode {s : State} (h : s.ROM.length = 160) (w : BitVec 48) :
    (placeCode s (.s w)).ROM[(placeCode s (.s w)).romAddress .left]? = some w := by
  have inRange : (if s.JL < 80 then s.JL else 0) < s.ROM.length := by split <;> omega
  exact List.getElem?_set_self inRange

/-- Settles O42: a code of format P or F is the turn at the head, an entry stands where the left branch
fetches next. -/
theorem placedCodeIsFetchedNext : Obligations.PlacedCodeIsFetchedNext := by
  intro s c h
  cases c with
  | p w => exact nextAction_of_lvop rfl
  | f w => exact nextAction_of_fn rfl
  | s w =>
    have left : (placeCode s (.s w)).nextBranch = some .left :=
      nextBranch_of_preference rfl (roundEnabled_left_placeCode s w)
    exact nextAction_of_nextBranch rfl left (getElem?_placeCode h w)

end Sys2Proof.Machine
end

section
/-! A call step by step (42_round_engine.md R130, R142, 43_block_finalizer.md R155): the registers stay on
the schedule, and the CALL script (30_encoding.md R80) runs to its end. -/

namespace Sys2Proof.Machine

/-! ### What keeps the registers on the schedule -/

theorem State.OnSchedule.endTurn {s : State} (h : s.OnSchedule) : s.endTurn.OnSchedule := { h with }

theorem State.OnSchedule.withReply {s : State} (h : s.OnSchedule) (r : Reply) : (s.withReply r).OnSchedule := { h with }

/-- START broadcasts the initial constants: every lane of what it writes is the IV. -/
theorem laneAt_ivQuint {s : State} (hiv : s.IVROM = ivTable) {i : Nat} (hi : i < s.n) :
    (ivQuint s).laneAt i = wordIV := by
  simp [Quint.laneAt, ivQuint, lane_broadcast, hi, ivWord, hiv, ivTable, wordIV]

/-- After START no round has been made, and the quintuples are the IV. -/
theorem onSchedule_start {s : State} (hiv : s.IVROM = ivTable) : (start s).OnSchedule where
  left := fun _ _ hi => laneAt_ivQuint hiv hi
  right := fun _ _ hi => laneAt_ivQuint hiv hi
  svec := fun _ _ hi => laneAt_ivQuint hiv hi
  digest := fun hp => nomatch hp

/-- A ROUND step with the scheduled entry takes a branch from its `j`-th quintuple to the next. -/
theorem State.OnSchedule.roundOn {s : State} (h : s.OnSchedule) (hc : s.inCall = true) {b : Branch} {e : Entry}
    (he : scheduleEntry b (s.count b) = e) : (roundOn b e.fn e.k e.idx e.rot s).OnSchedule := by
  have round {q : Quint} {i : Nat} (hi : i < s.n) (hq : q.laneAt i = wordAfter b (s.messageLane i) (s.count b)) :
      (roundPrimitive s.n e.fn e.k (s.message e.idx) e.rot q).laneAt i =
        wordAfter b (s.messageLane i) (s.count b + 1) := by
    rw [laneAt_roundPrimitive _ _ _ _ _ hi, hq, wordAfter, he]
    rfl
  cases b with
  | left =>
    rw [roundOn_left]
    exact {
      left := fun _ i hi => round hi (h.left hc i hi)
      right := fun _ => h.right hc
      svec := fun _ => h.svec hc
      digest := fun hp => nomatch hp }
  | right =>
    rw [roundOn_right]
    exact {
      left := fun _ => h.left hc
      right := fun _ i hi => round hi (h.right hc i hi)
      svec := fun _ => h.svec hc
      digest := fun hp => nomatch hp }

/-- From the IV, FINAL's combination in lane `i` is the word-level one (43_block_finalizer.md R151). -/
theorem laneAt_combine {n i : Nat} {S : Quint} (L R : Quint) (hi : i < n) (hS : S.laneAt i = wordIV) :
    (combine n S L R).laneAt i = wordCombine (L.laneAt i) (R.laneAt i) := by
  rw [wordCombine, ← hS]
  simp [combine, Quint.laneAt, lane_addV, hi, add32]

/-- `compress` swaps the bytes of each word of the combination. -/
theorem get_compress (m : Nat → Word) (j : Nat) :
    (compress m).get j = wordSwap ((wordCombine (wordAfter .left m 80) (wordAfter .right m 80)).get j) := by
  match j with
  | 0 | 1 | 2 | 3 | _ + 4 => rfl

/-- FINAL, with all rounds made, stores the digests (43_block_finalizer.md R155). -/
theorem State.OnSchedule.final {s : State} (h : s.OnSchedule) (hp : s.PH = .round) (hl : s.JL = 80) (hr : s.JR = 80) :
    (final s).OnSchedule where
  left := fun hc => nomatch hc
  right := fun hc => nomatch hc
  svec := fun hc => nomatch hc
  digest := by
    intro _ i hi j hj
    have hi : i < s.n := hi
    have hc : s.inCall = true := inCall_iff.mpr (.inr hp)
    have row : (5 * i + j) / 5 = i := by omega
    have index : (5 * i + j) % 5 = j := by omega
    show (storeDigest s.n (combine s.n s.S s.L s.R) s.OUT).word? (5 * i + j) =
      some ((compress (s.messageLane i)).get j)
    rw [word?_storeDigest _ _ _ (by omega), row, index, laneAt_combine _ _ hi (h.svec hc i hi), h.left hc i hi,
      h.right hc i hi, hl, hr, bswap32_eq_wordSwap, get_compress]

/-! ### The states of a call -/

/-- A call started in `s₀` has made `k` of its 161 engine steps: the message registers hold what START
gathered from `IN`, which stays as it was, and the engine is after its `k`-th ROUND step or after FINAL. -/
structure State.CallAfter (s₀ : State) (k : Nat) (s : State) : Prop where
  inv : s.Inv
  genuine : s.Genuine
  schedule : s.OnSchedule
  lanes : s.n = s₀.n
  messages : s.X = gatherMessage s₀
  input : s.IN = s₀.IN
  progress : (s.inCall = true ∧ s.JL + s.JR = k) ∨ (s.PH = .finalized ∧ k = 161)

theorem State.CallAfter.endTurn {s₀ s : State} {k : Nat} (h : s₀.CallAfter k s) : s₀.CallAfter k s.endTurn :=
  { h with inv := h.inv.endTurn, genuine := { h.genuine with }, schedule := h.schedule.endTurn }

theorem State.CallAfter.withReply {s₀ s : State} {k : Nat} (h : s₀.CallAfter k s) (r : Reply) :
    s₀.CallAfter k (s.withReply r) :=
  { h with inv := h.inv.withReply r, genuine := { h.genuine with }, schedule := h.schedule.withReply r }

theorem callAfter_start {s : State} (hi : s.Inv) (hg : s.Genuine) : s.CallAfter 0 (start s) where
  inv := hi.start
  genuine := { hg with }
  schedule := onSchedule_start hg.ivrom
  lanes := rfl
  messages := rfl
  input := rfl
  progress := .inl ⟨rfl, rfl⟩

/-- All 161 engine steps lead to FINALIZED, and no fewer. -/
theorem State.CallAfter.finalized {s₀ s : State} (h : s₀.CallAfter 161 s) : s.PH = .finalized := by
  have := h.inv.leftCount
  have := h.inv.rightCount
  rcases h.progress with ⟨-, hk⟩ | ⟨hp, -⟩
  · omega
  · exact hp

/-- In FINALIZED, `OUT` holds the digests of what stood in `IN` at START. -/
theorem State.CallAfter.digest {s₀ s : State} (h : s₀.CallAfter 161 s) {i : Nat} (hi : i < s₀.n) {m : Nat → Word}
    (hm : ∀ j, j < 16 → s₀.IN.word? (16 * i + j) = some (m j)) {j : Nat} (hj : j < 5) :
    s.OUT.word? (5 * i + j) = some ((compress m).get j) := by
  have message : compress (s.messageLane i) = compress m := compress_congr fun j hj => by
    rw [State.messageLane, h.messages, lane_gatherMessage hi hj (hm j hj)]
  rw [h.schedule.digest h.finalized i (h.lanes ▸ hi) j hj, message]

/-- A ROUND step that the engine may take is one more step of the call. -/
theorem State.CallAfter.roundOn {s₀ s : State} {k : Nat} (h : s₀.CallAfter k s) {b : Branch}
    (hb : s.nextBranch = some b) (hk : s.JL + s.JR = k) {e : Entry} (he : scheduleEntry b (s.count b) = e) :
    s₀.CallAfter (k + 1) (roundOn b e.fn e.k e.idx e.rot s) := by
  obtain ⟨hc, hj⟩ := enabled_of_nextBranch hb
  refine ⟨h.inv.roundOn hj _ _ _ _, ⟨?_, ?_⟩, h.schedule.roundOn hc he, ?_, ?_, ?_, .inl ⟨rfl, ?_⟩⟩
  · simpa [Machine.roundOn] using h.genuine.rom
  · simpa [Machine.roundOn] using h.genuine.ivrom
  · simpa [Machine.roundOn] using h.lanes
  · simpa [Machine.roundOn] using h.messages
  · simpa [Machine.roundOn] using h.input
  · subst hk
    cases b
    · rw [roundOn_left]; dsimp only; omega
    · rw [roundOn_right]; dsimp only; omega

/-- With both branches complete, FINAL is the last step of the call. -/
theorem State.CallAfter.final {s₀ s : State} (h : s₀.CallAfter 160 s) (hp : s.PH = .round) (hl : s.JL = 80)
    (hr : s.JR = 80) : s₀.CallAfter 161 (final s) :=
  { h with
    inv := h.inv.final (finalEnabled_iff.mpr ⟨hp, hl, hr⟩)
    genuine := { h.genuine with }
    schedule := h.schedule.final hp hl hr
    progress := .inr ⟨rfl, rfl⟩ }

/-! ### The turns of a call -/

/-- Before its 161st step the engine takes one more step of the call, whichever branch its turn prefers. -/
theorem State.CallAfter.step_engine {s₀ s : State} {k : Nat} (h : s₀.CallAfter k s) (hk : k < 161)
    (he : s.engineTurn = true) : ∃ t, step s = .next t ∧ s₀.CallAfter (k + 1) t ∧ t.turns = s.turns.tail := by
  obtain ⟨hc, hs⟩ | ⟨-, rfl⟩ := h.progress
  case inr => omega
  by_cases full : s.JL = 80 ∧ s.JR = 80
  · obtain ⟨hl, hr⟩ := full
    have hp : s.PH = .round := (inCall_iff.mp hc).resolve_left fun hp => by
      have := h.inv.initialized hp
      omega
    obtain rfl : k = 160 := by omega
    exact ⟨_, step_final he hp hl hr, (h.final hp hl hr).endTurn, rfl⟩
  · obtain ⟨b, hb⟩ := nextBranch_total hc h.inv.leftCount h.inv.rightCount full
    exact ⟨_, step_round h.genuine he hb rfl, (h.roundOn hb hs rfl).endTurn, by simp [Machine.roundOn]⟩

/-- A read of STATUS answers the phase's code and ends its turn. -/
theorem step_readStatus {s : State} {rest : List Turn} (h : s.turns = .host .readStatus :: rest) :
    step s = .next (s.withReply (.status (statusCode s))).endTurn := by
  rw [step_of_host h]
  rfl

/-- POLL: with as many engine steps to go as reads miss, the last read answers FINALIZED. -/
theorem State.CallAfter.run_poll {s₀ s : State} {k misses : Nat} (h : s₀.CallAfter k s) (hk : k + misses = 161)
    {rest : List Turn} (ht : s.turns = pollTurns misses ++ rest) :
    ∃ t : State, Host.Core.run core (2 * misses + 1) s = .next t ∧ s₀.CallAfter 161 t ∧ t.reply = .status 0b11 ∧
      t.turns = rest := by
  induction misses generalizing k s with
  | zero =>
    obtain rfl : k = 161 := hk
    have code : statusCode s = 0b11 := congrArg Phase.code h.finalized
    refine ⟨_, (run_next (step_readStatus ht)).trans rfl, (h.withReply _).endTurn, congrArg Reply.status code, ?_⟩
    simp [ht, pollTurns]
  | succ misses ih =>
    have read := step_readStatus ht
    have after := (h.withReply (.status (statusCode s))).endTurn
    have tail : (s.withReply (.status (statusCode s))).endTurn.turns = .engine none :: (pollTurns misses ++ rest) := by
      simp [ht, pollTurns]
    obtain ⟨u, hu, after', turns⟩ := after.step_engine (by omega) (by rw [State.engineTurn, tail])
    obtain ⟨t, run, done⟩ := ih after' (by omega) (by rw [turns, tail, List.tail_cons])
    exact ⟨t, (run_next read).trans ((run_next hu).trans run), done⟩

/-- Settles O52: START, then POLL with 161 engine steps to go. -/
theorem callScriptEndsFinalized : Obligations.CallScriptEndsFinalized := by
  intro s rest hi hg hp ht
  have started : step s = .next (start s).endTurn := by
    rw [step_of_host ht, hostStep, hostStart, not_inCall_iff.mpr hp]
    rfl
  have poll : (start s).endTurn.turns = pollTurns 161 ++ rest := congrArg List.tail ht
  obtain ⟨t, run, done, reply, turns⟩ := (callAfter_start hi hg).endTurn.run_poll (Nat.zero_add 161) poll
  exact ⟨t, (run_next started).trans run, done.finalized, reply, turns, fun i hi m hm j hj => done.digest hi hm hj⟩

end Sys2Proof.Machine
end

section
/-! The ten primitives in every lane (40_lane_vector.md R91 to R100). -/

namespace Sys2Proof.Machine

/-! ### Lane vectors as wholes -/

/-- A lane vector is what it holds in each of its lanes. -/
theorem eq_of_lane_eq {n : Nat} {v v' : LaneVec} (hv : v.length = n) (hv' : v'.length = n)
    (h : ∀ i, i < n → lane v i = lane v' i) : v = v' := by
  apply List.ext_getElem (hv.trans hv'.symm)
  intro i hi hi'
  simpa [lane, hi, hi'] using h i (hv ▸ hi)

/-- With one lane a broadcast vector is the one word (R91). -/
theorem broadcast_one (c : Word) : broadcast 1 c = [c] := rfl

theorem addV_comm (n : Nat) (x y : LaneVec) : addV n x y = addV n y x := by
  apply eq_of_lane_eq (length_addV n x y) (length_addV n y x)
  intro i hi
  rw [lane_addV _ _ hi, lane_addV _ _ hi]
  exact BitVec.add_comm _ _

theorem addV_assoc (n : Nat) (x y z : LaneVec) : addV n (addV n x y) z = addV n x (addV n y z) := by
  apply eq_of_lane_eq (length_addV n _ z) (length_addV n x _)
  intro i hi
  simp only [lane_addV _ _ hi]
  exact BitVec.add_assoc _ _ _

/-! ### One lane of each result, as bits or as a number -/

section
variable {n i : Nat} (x y : LaneVec) (h : i < n)
include h

theorem getLsbD_lane_andV (m : Nat) :
    (lane (andV n x y) i).getLsbD m = ((lane x i).getLsbD m && (lane y i).getLsbD m) := by
  rw [lane_andV _ _ h, BitVec.getLsbD_and]

theorem getLsbD_lane_orV (m : Nat) :
    (lane (orV n x y) i).getLsbD m = ((lane x i).getLsbD m || (lane y i).getLsbD m) := by
  rw [lane_orV _ _ h, BitVec.getLsbD_or]

theorem getLsbD_lane_xorV (m : Nat) :
    (lane (xorV n x y) i).getLsbD m = ((lane x i).getLsbD m ^^ (lane y i).getLsbD m) := by
  rw [lane_xorV _ _ h, BitVec.getLsbD_xor]

theorem toNat_lane_notV : (lane (notV n x) i).toNat = 0xFFFFFFFF - (lane x i).toNat := by
  rw [lane_notV _ h, not32, BitVec.toNat_not]

theorem toNat_lane_addV :
    (lane (addV n x y) i).toNat = ((lane x i).toNat + (lane y i).toNat) % 2 ^ 32 := by
  rw [lane_addV _ _ h, add32, BitVec.toNat_add]

end

/-- R99: bit `m` moves to bit `(m + n) mod 32`. -/
theorem getLsbD_rotl32 (x : Word) (n : BitVec 5) {m : Nat} (hm : m < 32) :
    (rotl32 x n).getLsbD ((m + n.toNat) % 32) = x.getLsbD m := by
  have hn : n.toNat < 32 := n.isLt
  rw [rotl32_eq_rotateLeft, BitVec.getLsbD_rotateLeft, Nat.mod_eq_of_lt hn]
  by_cases wraps : m + n.toNat < 32
  · have target : (m + n.toNat) % 32 = m + n.toNat := Nat.mod_eq_of_lt wraps
    simp [target, wraps]
  · have target : (m + n.toNat) % 32 = m + n.toNat - 32 := by omega
    have below : m + n.toNat - 32 < n.toNat := by omega
    have source : 32 - n.toNat + (m + n.toNat - 32) = m := by omega
    simp [target, below, source]

/-- A word is packed from its own four bytes. -/
theorem packWord_byteOf (w : Word) : packWord (byteOf w 0) (byteOf w 1) (byteOf w 2) (byteOf w 3) = w := by
  have := w.isLt
  apply BitVec.eq_of_toNat_eq
  rw [toNat_packWord]
  simp only [byteOf, BitVec.extractLsb'_toNat, Nat.shiftRight_eq_div_pow]
  omega

/-- Swapping the bytes twice gives the word back (R100). -/
theorem bswap32_bswap32 (w : Word) : bswap32 (bswap32 w) = w := by
  rw [bswap32_eq_packWord (bswap32 w)]
  simp only [byteOf_bswap32, Nat.reduceLT, Nat.reduceSub, packWord_byteOf]

/-! ### The primitives run on their own: BROADCAST to STORE_ROWS -/

/-- Settles O14, with the broadcast constant as the result. -/
theorem broadcastSetsEveryLane : Obligations.BroadcastSetsEveryLane := by
  intro s
  refine ⟨broadcast s.n s.port.k, rfl, length_broadcast _ _, fun i => lane_broadcast _, fun one => ?_⟩
  rw [State.n, one]
  exact broadcast_one s.port.k

/-- Settles O15: lane `i` reads `IN` at the effective address of row `i`. -/
theorem loadRowsGathersOneWordPerLane : Obligations.LoadRowsGathersOneWordPerLane := by
  intro s
  refine ⟨loadRows s.n 16 s.IN s.port.inIdx.val s.draws, s.draws + s.n, rfl, length_loadRows _ _ _ _ _, ?_⟩
  intro i hi w hw
  rw [lane_loadRows _ _ _ _ hi]
  exact readWord_of_word? hw _

/-- The stored word of row `i`. -/
theorem word?_storeRows_effectiveAddress {n row i j : Nat} (m : Memory) (v : LaneVec) (hi : i < n) (hj : j < row) :
    (storeRows n row m j v).word? (effectiveAddress row i j) = some (lane v i) := by
  have index : effectiveAddress row i j % row = j := by simp [effectiveAddress, Nat.mod_eq_of_lt hj]
  have rowIndex : effectiveAddress row i j / row = i := by
    rw [effectiveAddress, Nat.mul_add_div (by omega), Nat.div_eq_of_lt hj, Nat.add_zero]
  rw [word?_storeRows _ _ _ _ _ hj, index, rowIndex, if_pos ⟨rfl, hi⟩]

/-- An address that is no row's effective address keeps its word. -/
theorem word?_storeRows_of_ne {n row j a : Nat} (m : Memory) (v : LaneVec) (hj : j < row)
    (ha : ∀ i, i < n → a ≠ effectiveAddress row i j) : (storeRows n row m j v).word? a = m.word? a := by
  rw [word?_storeRows _ _ _ _ _ hj, if_neg]
  rintro ⟨index, hi⟩
  apply ha (a / row) hi
  rw [effectiveAddress, ← index, Nat.div_add_mod]

/-- Storing rows keeps the canonical form. -/
theorem wf_storeRows (n row j : Nat) {m : Memory} (v : LaneVec) (h : m.wf = true) :
    (storeRows n row m j v).wf = true :=
  List.foldlRecOn (motive := fun m => Memory.wf m = true) (List.range n) _ h fun _ hm _ _ => Memory.wf_put _ _ hm

/-- Settles O16, with the memory `OUT` becomes when the rows are stored. -/
theorem storeRowsScattersOneWordPerLane : Obligations.StoreRowsScattersOneWordPerLane := by
  intro s
  have hj : s.port.outIdx.val < 5 := s.port.outIdx.isLt
  exact ⟨storeRows s.n 5 s.OUT s.port.outIdx.val s.port.x, rfl,
    fun i hi => word?_storeRows_effectiveAddress _ _ hi hj, fun a => word?_storeRows_of_ne _ _ hj,
    wf_storeRows _ _ _ _⟩

/-! ### The primitives run on their own: AND to BYTESWAP -/

/-- Settles O17, by the AND of two words, bit by bit. -/
theorem andIsBitwisePerLane : Obligations.AndIsBitwisePerLane :=
  fun s => ⟨andV s.n s.port.x s.port.y, rfl, length_andV _ _ _, fun _ => getLsbD_lane_andV _ _⟩

/-- Settles O18, by the OR of two words, bit by bit. -/
theorem orIsBitwisePerLane : Obligations.OrIsBitwisePerLane :=
  fun s => ⟨orV s.n s.port.x s.port.y, rfl, length_orV _ _ _, fun _ => getLsbD_lane_orV _ _⟩

/-- Settles O19, by the exclusive OR of two words, bit by bit. -/
theorem xorIsBitwisePerLane : Obligations.XorIsBitwisePerLane :=
  fun s => ⟨xorV s.n s.port.x s.port.y, rfl, length_xorV _ _ _, fun _ => getLsbD_lane_xorV _ _⟩

/-- Settles O20, by the complement of one word as a number. -/
theorem notComplementsEveryBit : Obligations.NotComplementsEveryBit :=
  fun s => ⟨notV s.n s.port.x, rfl, length_notV _ _, fun _ => toNat_lane_notV _⟩

/-- Settles O21, by the sum of two words as numbers. -/
theorem add32WrapsPerLane : Obligations.Add32WrapsPerLane :=
  fun s => ⟨addV s.n s.port.x s.port.y, rfl, length_addV _ _ _, fun _ => toNat_lane_addV _ _⟩

/-- Settles O24, by where the rotation of one word takes each bit. -/
theorem rotlMovesEveryBit : Obligations.RotlMovesEveryBit := by
  intro s
  refine ⟨rotlV s.n s.port.x s.port.n, rfl, length_rotlV _ _ _, fun i hi => ?_⟩
  rw [lane_rotlV _ _ hi]
  refine ⟨fun m => getLsbD_rotl32 _ _, fun zero => ?_⟩
  rw [zero, rotl32_zero]

/-- Settles O25, by the bytes of one swapped word. -/
theorem byteswapReversesBytes : Obligations.ByteswapReversesBytes := by
  refine ⟨fun s => ⟨byteswapV s.n s.port.x, rfl, length_byteswapV _ _, fun i hi k hk => ?bytes⟩,
    fun n i x hi => ?twice⟩
  case bytes => rw [lane_byteswapV _ hi, byteOf_bswap32 _ hk]
  case twice => rw [lane_byteswapV _ hi, lane_byteswapV _ hi, bswap32_bswap32]

/-! ### The primitives as the spec defines them -/

/-- Settles O22: the results bit by bit, then each corner case as a law of words. -/
theorem bitwisePrimitivesAsDefined : Obligations.BitwisePrimitivesAsDefined := by
  refine ⟨⟨rfl, rfl, rfl, rfl⟩, fun n x y => ?results, rfl, rfl, rfl, rfl, rfl⟩
  refine ⟨length_andV n x y, length_orV n x y, length_xorV n x y, length_notV n x, fun i hi => ?inLane⟩
  refine ⟨fun m => ⟨getLsbD_lane_andV x y hi m, getLsbD_lane_orV x y hi m, getLsbD_lane_xorV x y hi m⟩,
    toNat_lane_notV x hi, ?andSelf, ?andNot, ?orSelf, ?orNot, ?xorSelf, ?xorOnes, ?notNot⟩
  case andSelf => rw [lane_andV _ _ hi, BitVec.and_self]
  case andNot => rw [lane_andV _ _ hi, lane_notV _ hi]; exact BitVec.and_not_self _
  case orSelf => rw [lane_orV _ _ hi, BitVec.or_self]
  case orNot => rw [lane_orV _ _ hi, lane_notV _ hi]; exact BitVec.or_not_self _
  case xorSelf => rw [lane_xorV _ _ hi]; exact BitVec.xor_self
  case xorOnes => rw [lane_xorV _ _ hi, lane_broadcast _ hi, lane_notV _ hi]; exact BitVec.xor_allOnes
  case notNot => rw [lane_notV _ hi, lane_notV _ hi]; exact BitVec.not_not

/-- Settles O23: each lane's sum is its own, so addition of vectors has the laws of addition of words. -/
theorem additionWrapsWithoutCarry : Obligations.AdditionWrapsWithoutCarry :=
  ⟨rfl, fun n x y z => ⟨length_addV n x y, fun _ => toNat_lane_addV x y, addV_comm n x y, addV_assoc n x y z⟩, rfl⟩

end Sys2Proof.Machine
end

section
/-! Whole calls in any issue order (43_block_finalizer.md R155), and that lanes do not mix
(40_lane_vector.md R90, R103). -/

namespace Sys2Proof.Machine

/-- As many engine turns as a call has steps to go end it, whichever branches they prefer. -/
theorem State.CallAfter.run_engine {s₀ s : State} {k : Nat} (h : s₀.CallAfter k s) {picks : List (Option Branch)}
    (hk : k + picks.length = 161) {rest : List Turn} (ht : s.turns = picks.map Turn.engine ++ rest) :
    ∃ t : State, Host.Core.run core picks.length s = .next t ∧ s₀.CallAfter 161 t ∧ t.turns = rest := by
  induction picks generalizing k s with
  | nil =>
    obtain rfl : k = 161 := hk
    exact ⟨s, rfl, h, ht⟩
  | cons pick picks ih =>
    rw [List.length_cons] at hk ⊢
    obtain ⟨u, hu, after, turns⟩ := h.step_engine (by omega) (by rw [State.engineTurn, ht]; rfl)
    obtain ⟨t, run, done⟩ := ih after (by omega) (by rw [turns, ht]; rfl)
    exact ⟨t, (run_next hu).trans run, done⟩

/-- Outside a call, the host's START begins one. -/
theorem step_start {s : State} (hp : s.PH = .idle ∨ s.PH = .finalized) {rest : List Turn}
    (ht : s.turns = .host .start :: rest) : step s = .next (start s).endTurn := by
  rw [step_of_host ht, hostStep, hostStart, not_inCall_iff.mpr hp]
  rfl

/-- START and 161 engine turns make a whole call, in any issue order. -/
theorem run_call {s : State} {picks : List (Option Branch)} {rest : List Turn} (hi : s.Inv) (hg : s.Genuine)
    (hp : s.PH = .idle ∨ s.PH = .finalized) (hl : picks.length = 161)
    (ht : s.turns = .host .start :: (picks.map Turn.engine ++ rest)) :
    ∃ t : State, Host.Core.run core 162 s = .next t ∧ s.CallAfter 161 t ∧ t.turns = rest := by
  have turns : (start s).endTurn.turns = picks.map Turn.engine ++ rest := congrArg List.tail ht
  obtain ⟨t, run, done⟩ := (callAfter_start hi hg).endTurn.run_engine (by omega) turns
  rw [hl] at run
  exact ⟨t, (run_next (step_start hp ht)).trans run, done⟩

/-- Settles O53: each call leaves in the lane's row of `OUT` the same function `compress` of the same words. -/
theorem digestDependsOnOwnLaneOnly : Obligations.DigestDependsOnOwnLaneOnly := by
  intro s s' picks picks' rest rest' i i' hi hg hp hl ht hi' hg' hp' hl' ht' hlane hlane' same
  obtain ⟨t, run, done, -⟩ := run_call hi hg hp hl ht
  obtain ⟨t', run', done', -⟩ := run_call hi' hg' hp' hl' ht'
  choose! m hm using fun j hj => Option.isSome_iff_exists.mp (same j hj).1
  have hm' : ∀ j, j < 16 → s'.IN.word? (16 * i' + j) = some (m j) := fun j hj => (same j hj).2.trans (hm j hj)
  refine ⟨t, t', run, run', fun j hj => ?_⟩
  rw [done.digest hlane hm hj, done'.digest hlane' hm' hj]
  exact ⟨rfl, rfl⟩

end Sys2Proof.Machine
end

section
/-! The base functions as the spec defines them (41_base_functions_round.md R110 to R114). -/

namespace Sys2Proof.Machine

/-! ### Each base function in one lane -/

section
variable {n i : Nat} (b c d : LaneVec) (h : i < n)
include h

theorem lane_fnF1 : lane (fnF1 n b c d) i = wordFn .f1 (lane b i) (lane c i) (lane d i) :=
  lane_selectFn .f1 b c d h
theorem lane_fnF2 : lane (fnF2 n b c d) i = wordFn .f2 (lane b i) (lane c i) (lane d i) :=
  lane_selectFn .f2 b c d h
theorem lane_fnF3 : lane (fnF3 n b c d) i = wordFn .f3 (lane b i) (lane c i) (lane d i) :=
  lane_selectFn .f3 b c d h
theorem lane_fnF4 : lane (fnF4 n b c d) i = wordFn .f4 (lane b i) (lane c i) (lane d i) :=
  lane_selectFn .f4 b c d h
theorem lane_fnF5 : lane (fnF5 n b c d) i = wordFn .f5 (lane b i) (lane c i) (lane d i) :=
  lane_selectFn .f5 b c d h

/-- The two terms `F2` joins, in one lane. -/
theorem lane_f2Terms :
    lane (andV n b c) i = lane b i &&& lane c i ∧
      lane (andV n (notV n b) d) i = ~~~lane b i &&& lane d i := by
  rw [lane_andV _ _ h, lane_andV _ _ h, lane_notV _ h]
  exact ⟨rfl, rfl⟩

end

theorem length_selectFn (n : Nat) (fn : BaseFn) (b c d : LaneVec) : (selectFn n fn b c d).length = n := by
  cases fn with
  | f1 => exact length_xorV n _ d
  | f2 => exact length_orV n _ _
  | f3 => exact length_xorV n _ d
  | f4 => exact length_orV n _ _
  | f5 => exact length_xorV n b _

/-! ### The base functions on words -/

/-- R110: `F1` does not change when its outer operands are exchanged. -/
theorem wordFn_f1_swap_outer (b c d : Word) : wordFn .f1 b c d = wordFn .f1 d c b :=
  calc b ^^^ c ^^^ d
    _ = d ^^^ (b ^^^ c) := BitVec.xor_comm _ _
    _ = d ^^^ (c ^^^ b) := by rw [BitVec.xor_comm b c]
    _ = d ^^^ c ^^^ b := (BitVec.xor_assoc d c b).symm

/-- R110: `F1` does not change when its last two operands are exchanged. -/
theorem wordFn_f1_swap_last (b c d : Word) : wordFn .f1 b c d = wordFn .f1 b d c :=
  calc b ^^^ c ^^^ d
    _ = b ^^^ (c ^^^ d) := BitVec.xor_assoc b c d
    _ = b ^^^ (d ^^^ c) := by rw [BitVec.xor_comm c d]
    _ = b ^^^ d ^^^ c := (BitVec.xor_assoc b d c).symm

theorem wordFn_f1_self (x d : Word) : wordFn .f1 x x d = d := by
  rw [wordFn, BitVec.xor_self, BitVec.zero_xor]

/-- R111: bit `m` of `F2` is that of `c` where `b` has a 1 and that of `d` where it has a 0. -/
theorem getLsbD_wordFn_f2 (b c d : Word) (m : Nat) :
    (wordFn .f2 b c d).getLsbD m = if b.getLsbD m then c.getLsbD m else d.getLsbD m := by
  by_cases hm : m < 32
  · rw [wordFn, BitVec.getLsbD_or, BitVec.getLsbD_and, BitVec.getLsbD_and, BitVec.getLsbD_not, decide_eq_true hm]
    cases b.getLsbD m <;> simp
  · have beyond (w : Word) : w.getLsbD m = false := BitVec.getLsbD_of_ge w m (by omega)
    simp only [beyond, ite_self]

/-- R113: `F4` is the select `F2` with `d` in the place of the selecting operand. -/
theorem wordFn_f4_eq_f2 (b c d : Word) : wordFn .f4 b c d = wordFn .f2 d b c := by
  rw [wordFn, wordFn, BitVec.and_comm b d, BitVec.and_comm c]

/-- R114: `F5` is `F3` of its operands taken round by one place. -/
theorem wordFn_f5_eq_f3 (b c d : Word) : wordFn .f5 b c d = wordFn .f3 c d b :=
  BitVec.xor_comm b (c ||| ~~~d)

/-- R111: the two terms of `F2` are never both 1 in one bit. -/
theorem f2Terms_disjoint (b c d : Word) : (b &&& c) &&& (~~~b &&& d) = 0 :=
  calc (b &&& c) &&& (~~~b &&& d)
    _ = (b &&& ~~~b) &&& (c &&& d) := by ac_rfl
    _ = 0 := by rw [BitVec.and_not_self]; exact BitVec.zero_and

/-- Words that share no 1 have the same `or` and `xor`. -/
theorem or_eq_xor_of_and_eq_zero {x y : Word} (h : x &&& y = 0) : x ||| y = x ^^^ y := by
  apply BitVec.eq_of_getLsbD_eq
  intro m _
  have disjoint : (x.getLsbD m && y.getLsbD m) = false := by rw [← BitVec.getLsbD_and, h]; exact BitVec.getLsbD_zero
  rw [BitVec.getLsbD_or, BitVec.getLsbD_xor]
  revert disjoint
  cases x.getLsbD m <;> cases y.getLsbD m <;> decide

/-! ### The obligation -/

/-- Settles O27: each function is its formula lane by lane, so the corner cases are laws of words. -/
theorem baseFunctionsAsDefined : Obligations.BaseFunctionsAsDefined := by
  refine ⟨⟨rfl, rfl, rfl, rfl, rfl⟩,
    fun n fn b c d => ⟨length_selectFn n fn b c d, fun i => lane_selectFn fn b c d⟩,
    fun n b c d => ⟨rfl, rfl, rfl, rfl, rfl⟩, fun n i x b c d hi => ?cornerCases,
    rfl, rfl, rfl, rfl, rfl, rfl, rfl⟩
  obtain ⟨hthen, helse⟩ := lane_f2Terms b c d hi
  have disjoint := f2Terms_disjoint (lane b i) (lane c i) (lane d i)
  refine ⟨?f1SwapOuter, ?f1SwapLast, ?f1Self, fun m => ?f2Selects, ?f2Disjoint, ?f2Xor, ?f2Add,
    fun m => ?f4Selects, ?f4Eq, ?f5Eq⟩
  case f1SwapOuter => rw [lane_fnF1 _ _ _ hi, lane_fnF1 _ _ _ hi, wordFn_f1_swap_outer]
  case f1SwapLast => rw [lane_fnF1 _ _ _ hi, lane_fnF1 _ _ _ hi, wordFn_f1_swap_last]
  case f1Self => rw [lane_fnF1 _ _ _ hi, wordFn_f1_self]
  case f2Selects => rw [lane_fnF2 _ _ _ hi, getLsbD_wordFn_f2]
  case f2Disjoint => rw [lane_andV _ _ hi, hthen, helse, disjoint]
  case f2Xor =>
    rw [lane_fnF2 _ _ _ hi, lane_xorV _ _ hi, hthen, helse]
    exact or_eq_xor_of_and_eq_zero disjoint
  case f2Add =>
    rw [lane_fnF2 _ _ _ hi, lane_addV _ _ hi, hthen, helse]
    exact (BitVec.add_eq_or_of_and_eq_zero _ _ disjoint).symm
  case f4Selects => rw [lane_fnF4 _ _ _ hi, wordFn_f4_eq_f2, getLsbD_wordFn_f2]
  case f4Eq => rw [lane_fnF4 _ _ _ hi, lane_fnF2 _ _ _ hi, wordFn_f4_eq_f2]
  case f5Eq => rw [lane_fnF5 _ _ _ hi, lane_fnF3 _ _ _ hi, wordFn_f5_eq_f3]

end Sys2Proof.Machine
end

section
/-! What each turn of the spec does to the registers (42_round_engine.md R130, 43_block_finalizer.md R155). -/

namespace Sys2Proof.Machine

/-! ### The entries the engine runs -/

/-- With the ROMs at their contents, the word at the address of the branch taken is the entry of its next round. -/
theorem romWord_of_nextBranch {s : State} (hg : s.Genuine) {b : Branch} (hb : s.nextBranch = some b) {e : Entry}
    (he : scheduleEntry b (s.count b) = e) :
    ∃ w, s.ROM[s.romAddress b]? = some w ∧ decode (.s w) = .ok (.round e.fn e.k e.idx e.rot) := by
  subst he
  obtain ⟨w, hw, hd⟩ := romTable_entry b (enabled_of_nextBranch hb).2
  exact ⟨w, by rw [hg.rom, ← hw]; cases b <;> rfl, hd⟩

/-- A ROUND micro-instruction makes the ROUND step of the branch the engine takes next. -/
theorem exec_round_of_nextBranch {s : State} {b : Branch} (hb : s.nextBranch = some b) (fn : BaseFn) (k : Word)
    (idx : BitVec 4) (rot : BitVec 5) : exec (.round fn k idx rot) s = .next (roundOn b fn k idx rot s) := by
  rw [exec_round, roundStep, hb]

/-- On a turn of the spec, the instruction that runs is the scheduled ROUND step. -/
theorem roundOn_of_run {s u : State} {c : Code} {i : Instr} (hg : s.Genuine)
    (hspec : ∀ v ∈ s.turns.head?, v.ofSpec = true) (hn : nextAction s = .run c) (hd : decode c = .ok i)
    (hu : exec i s = .next u) :
    ∃ b e, s.nextBranch = some b ∧ scheduleEntry b (s.count b) = e ∧ u = roundOn b e.fn e.k e.idx e.rot s := by
  rcases nextAction_run hn with ⟨b, w, hb, hw, rfl⟩ | ⟨w, rest, ht, -⟩ | ⟨w, rest, ht, -⟩
  · obtain ⟨w', hw', hd'⟩ := romWord_of_nextBranch hg hb rfl
    obtain rfl : w = w' := Option.some.inj (hw.symm.trans hw')
    obtain rfl := Except.ok.inj (hd.symm.trans hd')
    rw [exec_round_of_nextBranch hb] at hu
    exact ⟨b, _, hb, rfl, by injection hu with h; exact h.symm⟩
  · simp [ht, Turn.ofSpec] at hspec
  · simp [ht, Turn.ofSpec] at hspec

/-! ### Every step keeps the schedule -/

theorem State.OnSchedule.withIN {s : State} (h : s.OnSchedule) (m : Memory) : (s.withIN m).OnSchedule := { h with }

theorem State.OnSchedule.drew {s : State} (h : s.OnSchedule) (k : Nat) : (s.drew k).OnSchedule := { h with }

/-- After hardware reset no call is in progress and no digest is claimed. -/
theorem onSchedule_hardwareReset (s : State) : (hardwareReset s).OnSchedule where
  left := fun hc => nomatch hc
  right := fun hc => nomatch hc
  svec := fun hc => nomatch hc
  digest := fun hp => nomatch hp

theorem State.OnSchedule.hostStep {a : HostAction} {s t : State} (h : s.OnSchedule) (hiv : s.IVROM = ivTable)
    (ha : hostStep a s = .next t) : t.OnSchedule := by
  rcases hostStep_cases ha with
    ⟨i, j, w, -, -, -, -, rfl⟩ | ⟨-, -, rfl⟩ | ⟨-, rfl⟩ | ⟨i, j, -, -, -, -, rfl⟩
  · exact h.withIN _
  · exact onSchedule_start hiv
  · exact h.withReply _
  · exact (h.withReply _).drew 1

/-- Settles O44, by the five things a step can do; an instruction is the scheduled ROUND step. -/
theorem stepKeepsSchedule : Obligations.StepKeepsSchedule := by
  intro s t hg h hspec hs
  rcases step_cases hs with ⟨c, i, u, hn, hd, hu, rfl⟩ | ⟨-, he, rfl⟩ | ⟨a, u, -, hu, rfl⟩ | ⟨-, rfl⟩ | ⟨-, rfl⟩
  · obtain ⟨b, e, hb, he, rfl⟩ := roundOn_of_run hg hspec hn hd hu
    exact (h.roundOn (enabled_of_nextBranch hb).1 he).endTurn
  · obtain ⟨hp, hl, hr⟩ := finalEnabled_iff.mp he
    exact (h.final hp hl hr).endTurn
  · exact (h.hostStep hg.ivrom hu).endTurn
  · exact (onSchedule_hardwareReset s).endTurn
  · exact h.endTurn

end Sys2Proof.Machine
end

section
/-! Which ROUND step the engine takes, what it does, and in what order (42_round_engine.md R127 to R130,
R140 to R143). -/

namespace Sys2Proof.Machine

/-! ### The branch taken -/

theorem roundEnabled_of {s : State} {b : Branch} (hp : s.PH = .initialized ∨ s.PH = .round) (h : s.count b < 80) :
    s.roundEnabled b = true :=
  roundEnabled_iff.mpr ⟨inCall_iff.mpr hp, h⟩

/-- An enabled branch is taken when the turn, or the default order, selects it, or when the other one is
complete (42_round_engine.md R129). -/
theorem nextBranch_of_selected {s : State} {b : Branch} (hb : s.roundEnabled b = true)
    (hsel : s.preference.getD s.defaultBranch = b ∨ ¬ s.count b.other < 80) : s.nextBranch = some b := by
  rw [State.nextBranch]
  by_cases hs : s.preference.getD s.defaultBranch = b
  · simp [hs, hb]
  · have complete : s.roundEnabled b.other = false := by
      rw [← Bool.not_eq_true, roundEnabled_iff]
      exact fun h => hsel.resolve_left hs h.2
    have other : s.preference.getD s.defaultBranch = b.other := by
      revert hs
      cases s.preference.getD s.defaultBranch <;> cases b <;> simp [Branch.other]
    have back : b.other.other = b := by cases b <;> rfl
    simp [other, complete, back, hb]

/-- With both branches complete no ROUND step is enabled. -/
theorem nextBranch_of_complete {s : State} (hl : s.JL = 80) (hr : s.JR = 80) : s.nextBranch = none := by
  rw [nextBranch_eq_none_iff]
  simp [State.roundEnabled, State.count, hl, hr]

/-- Outside a call no ROUND step is enabled. -/
theorem nextBranch_of_not_inCall {s : State} (hc : s.inCall = false) : s.nextBranch = none := by
  rw [nextBranch_eq_none_iff]
  simp [State.roundEnabled, hc]

/-- Some ROUND step is enabled exactly in a call with rounds left in a branch. -/
theorem exists_nextBranch_iff {s : State} :
    (∃ b, s.nextBranch = some b) ↔ (s.PH = .initialized ∨ s.PH = .round) ∧ (s.JL < 80 ∨ s.JR < 80) := by
  rw [← Option.ne_none_iff_exists', Ne, nextBranch_eq_none_iff, ← Bool.not_eq_true, ← Bool.not_eq_true,
    roundEnabled_iff, roundEnabled_iff, ← inCall_iff]
  show ¬ (¬ (_ ∧ s.JL < 80) ∧ ¬ (_ ∧ s.JR < 80)) ↔ _
  tauto

/-! ### What a ROUND step does -/

/-- The round primitive in one lane, register by register (41_base_functions_round.md R116, R117). -/
theorem lanes_roundPrimitive {n i : Nat} (fn : BaseFn) (k : Word) (x : LaneVec) (rot : BitVec 5) (q : Quint)
    (hi : i < n) :
    ∃ t : Word, t = lane q.a i + wordFn fn (lane q.b i) (lane q.c i) (lane q.d i) + lane x i + k ∧
      lane (roundPrimitive n fn k x rot q).a i = lane q.e i ∧
      lane (roundPrimitive n fn k x rot q).b i = t.rotateLeft rot.toNat + lane q.e i ∧
      lane (roundPrimitive n fn k x rot q).c i = lane q.b i ∧
      lane (roundPrimitive n fn k x rot q).d i = (lane q.c i).rotateLeft 10 ∧
      lane (roundPrimitive n fn k x rot q).e i = lane q.d i := by
  have round := laneAt_roundPrimitive fn k x rot q hi
  exact ⟨_, rfl, congrArg WordQuint.a round, congrArg WordQuint.b round, congrArg WordQuint.c round,
    congrArg WordQuint.d round, congrArg WordQuint.e round⟩

/-- Settles O28: the left branch is the one taken, and its quintuple goes through the round primitive. -/
theorem leftRoundStep : Obligations.LeftRoundStep := by
  intro s fn k idx rot hp hl hsel
  have taken : s.nextBranch = some .left := nextBranch_of_selected (roundEnabled_of hp hl) hsel
  exact ⟨_, exec_round_of_nextBranch taken fn k idx rot, sized_roundPrimitive fn k _ rot,
    fun i hi => lanes_roundPrimitive fn k _ rot s.L hi⟩

/-- Settles O29: the right branch is the one taken, and its quintuple goes through the round primitive. -/
theorem rightRoundStep : Obligations.RightRoundStep := by
  intro s fn k idx rot hp hr hsel
  have taken : s.nextBranch = some .right := nextBranch_of_selected (roundEnabled_of hp hr) hsel
  exact ⟨_, exec_round_of_nextBranch taken fn k idx rot, sized_roundPrimitive fn k _ rot,
    fun i hi => lanes_roundPrimitive fn k _ rot s.R hi⟩

/-- Settles O30: the ROUND micro-instruction runs exactly when there is a branch to take. -/
theorem roundNeedsAnEnabledBranch : Obligations.RoundNeedsAnEnabledBranch := by
  intro s fn k idx rot
  rw [← exists_nextBranch_iff, exec_round, roundStep]
  cases s.nextBranch <;> simp

section
variable (b : Branch) (fn : BaseFn) (k : Word) (idx : BitVec 4) (rot : BitVec 5) (s : State)

@[simp] theorem roundOn_count : (roundOn b fn k idx rot s).count b = s.count b + 1 := by cases b <;> rfl
@[simp] theorem roundOn_count_other : (roundOn b fn k idx rot s).count b.other = s.count b.other := by cases b <;> rfl
@[simp] theorem roundOn_quint_other : (roundOn b fn k idx rot s).quint b.other = s.quint b.other := by cases b <;> rfl
@[simp] theorem roundOn_PH : (roundOn b fn k idx rot s).PH = .round := by cases b <;> rfl
@[simp] theorem roundOn_turns : (roundOn b fn k idx rot s).turns = s.turns := by cases b <;> rfl

/-- A ROUND step is one round more, in one of the branches. -/
theorem roundOn_rounds : (roundOn b fn k idx rot s).JL + (roundOn b fn k idx rot s).JR = s.JL + s.JR + 1 := by
  cases b with
  | left => rw [roundOn_left]; dsimp only; omega
  | right => rw [roundOn_right]; dsimp only; omega

end

/-- The engine's turn when branch `b` is taken: its counter is one higher, the other branch is as before. -/
theorem step_of_nextBranch {s : State} (hg : s.Genuine) (he : s.engineTurn = true) {b : Branch}
    (hb : s.nextBranch = some b) :
    ∃ t, step s = .next t ∧ t.count b = s.count b + 1 ∧ t.count b.other = s.count b.other ∧
      t.quint b.other = s.quint b.other ∧ t.PH = .round ∧ t.turns = s.turns.tail :=
  ⟨_, step_round hg he hb rfl, by simp⟩

/-! ### The order of the ROUND steps -/

/-- Settles O31, by the branch that the turn's preference selects. -/
theorem engineMayTakeEitherBranch : Obligations.EngineMayTakeEitherBranch := by
  intro s b rest hg hp ht
  have pref : s.preference = some b := by rw [State.preference, ht]
  have turn : s.engineTurn = true := by rw [State.engineTurn, ht]
  have tail : s.turns.tail = rest := congrArg List.tail ht
  have back : b.other.other = b := by cases b <;> rfl
  refine ⟨fun hb => ?preferred, fun hb hother => ?other⟩
  case preferred =>
    rw [← tail]
    exact step_of_nextBranch hg turn (nextBranch_of_preference pref (roundEnabled_of hp hb))
  case other =>
    have := step_of_nextBranch hg turn (nextBranch_of_selected (roundEnabled_of hp hother) (.inr (by rwa [back])))
    rwa [back, tail] at this

/-- An engine turn that prefers a branch with rounds left runs that branch's next entry. -/
theorem step_of_preference {s : State} {b : Branch} {rest : List Turn} (hg : s.Genuine)
    (hp : s.PH = .initialized ∨ s.PH = .round) (hb : s.count b < 80) (ht : s.turns = .engine (some b) :: rest)
    {e : Entry} (he : scheduleEntry b (s.count b) = e) :
    step s = .next (roundOn b e.fn e.k e.idx e.rot s).endTurn :=
  step_round hg (by rw [State.engineTurn, ht])
    (nextBranch_of_preference (by rw [State.preference, ht]) (roundEnabled_of hp hb)) he

/-- Two engine turns that prefer one branch and then the other, with rounds left in both. -/
theorem run_both_branches {s : State} {b : Branch} {rest : List Turn} (hg : s.Genuine)
    (hp : s.PH = .initialized ∨ s.PH = .round) (hb : s.count b < 80) (ho : s.count b.other < 80)
    (ht : s.turns = .engine (some b) :: .engine (some b.other) :: rest) {e e' : Entry}
    (he : scheduleEntry b (s.count b) = e) (he' : scheduleEntry b.other (s.count b.other) = e') :
    Host.Core.run core 2 s =
      .next (roundOn b.other e'.fn e'.k e'.idx e'.rot (roundOn b e.fn e.k e.idx e.rot s).endTurn).endTurn := by
  obtain ⟨rom, ivrom, -⟩ := sameConstants_roundOn b e.fn e.k e.idx e.rot s
  have first := step_of_preference hg hp hb ht he
  have second := step_of_preference (s := (roundOn b e.fn e.k e.idx e.rot s).endTurn) (b := b.other) (rest := rest)
    ⟨rom.trans hg.rom, ivrom.trans hg.ivrom⟩ (.inr (by simp)) (by simpa using ho) (by simp [ht])
    (by simpa using he')
  exact (run_next first).trans (run_next second)

/-- ROUND steps of the two branches write different registers, and neither writes the message registers. -/
theorem roundOn_comm (l r : Entry) (s : State) (rest : List Turn) :
    (roundOn .right r.fn r.k r.idx r.rot (roundOn .left l.fn l.k l.idx l.rot
        { s with turns := .engine (some .left) :: .engine (some .right) :: rest }).endTurn).endTurn =
      (roundOn .left l.fn l.k l.idx l.rot (roundOn .right r.fn r.k r.idx r.rot
        { s with turns := .engine (some .right) :: .engine (some .left) :: rest }).endTurn).endTurn := by
  simp only [roundOn_left, roundOn_right, State.endTurn, State.n, State.message, List.tail_cons]

/-- Settles O32: in both orders each branch runs the same entry, on registers and a message that the other
branch's step leaves as they are. -/
theorem leftAndRightStepsCommute : Obligations.LeftAndRightStepsCommute := by
  intro s rest hg hp hl hr
  generalize hleft : scheduleEntry .left s.JL = l
  generalize hright : scheduleEntry .right s.JR = r
  have leftFirst := run_both_branches (b := .left) (rest := rest)
    (s := { s with turns := .engine (some .left) :: .engine (some .right) :: rest })
    { hg with } hp hl hr rfl hleft hright
  have rightFirst := run_both_branches (b := .right) (rest := rest)
    (s := { s with turns := .engine (some .right) :: .engine (some .left) :: rest })
    { hg with } hp hr hl rfl hright hleft
  exact ⟨_, leftFirst, rightFirst.trans (congrArg _ (roundOn_comm l r s rest).symm), rfl, rfl, rfl⟩

/-- A call in the default order after `k` ROUND steps, with no turn left: the rounds are shared evenly, the odd
one made by the left branch (42_round_engine.md R143). -/
structure State.AlternatedFor (k : Nat) (s : State) : Prop where
  genuine : s.Genuine
  inCall : s.PH = .initialized ∨ s.PH = .round
  turns : s.turns = []
  left : s.JL = (k + 1) / 2
  right : s.JR = k / 2

/-- The default order takes the left branch after an even number of rounds, the right one after an odd number. -/
theorem State.AlternatedFor.step {k : Nat} {s : State} (h : s.AlternatedFor k) (hk : k < 160) :
    ∃ t, step s = .next t ∧ t.AlternatedFor (k + 1) := by
  obtain ⟨hg, hp, ht, hl, hr⟩ := h
  have turn : s.engineTurn = true := by rw [State.engineTurn, ht]
  have order : s.preference.getD s.defaultBranch = if s.JL ≤ s.JR then .left else .right := by
    rw [State.preference, ht]; rfl
  by_cases even : s.JL ≤ s.JR
  · have enabled : s.roundEnabled .left = true := roundEnabled_of hp (show s.JL < 80 by omega)
    have taken := nextBranch_of_selected enabled (.inl (order.trans (if_pos even)))
    exact ⟨_, step_round hg turn taken rfl, { hg with }, .inr rfl, congrArg List.tail ht,
      show s.JL + 1 = _ by omega, show s.JR = _ by omega⟩
  · have enabled : s.roundEnabled .right = true := roundEnabled_of hp (show s.JR < 80 by omega)
    have taken := nextBranch_of_selected enabled (.inl (order.trans (if_neg even)))
    exact ⟨_, step_round hg turn taken rfl, { hg with }, .inr rfl, congrArg List.tail ht,
      show s.JL = _ by omega, show s.JR + 1 = _ by omega⟩

theorem State.AlternatedFor.run {j : Nat} {s : State} (h : s.AlternatedFor j) {k : Nat} (hk : j + k ≤ 160) :
    ∃ t, Host.Core.run core k s = .next t ∧ State.AlternatedFor (j + k) t := by
  induction k generalizing j s with
  | zero => exact ⟨s, rfl, h⟩
  | succ k ih =>
    obtain ⟨u, hu, after⟩ := h.step (by omega)
    obtain ⟨t, run, done⟩ := ih after (by omega)
    exact ⟨t, (run_next hu).trans run, by rwa [Nat.add_right_comm] at done⟩

/-- Settles O33, by induction on the number of steps made in the default order. -/
theorem defaultOrderAlternates : Obligations.DefaultOrderAlternates := by
  intro s hg hp hl hr ht k hk
  obtain ⟨t, run, done⟩ := State.AlternatedFor.run (j := 0) ⟨hg, .inl hp, ht, hl, hr⟩ (k := k) (by omega)
  rw [Nat.zero_add] at done
  exact ⟨t, run, done.left, done.right⟩

/-! ### START, FINAL and the wait for the host -/

/-- Settles O34, with what START broadcasts from `IVROM` and gathers from `IN`. -/
theorem startInitialisesTheCall : Obligations.StartInitialisesTheCall := by
  intro s rest hiv hp ht
  refine ⟨ivQuint s, gatherMessage s, s.draws + s.n * 16, ?step, sized_ivQuint s, fun i => laneAt_ivQuint hiv,
    ?registers, ?registerLanes, fun i hi j hj w => lane_gatherMessage hi hj⟩
  case step => rw [step_start hp ht, State.endTurn, start, ht, List.tail_cons]
  case registers => simp [gatherMessage]
  case registerLanes => simp [gatherMessage]

/-- With no ROUND step enabled the engine's action is FINAL where that is enabled, else none. -/
theorem nextAction_of_nextBranch_none {s : State} (he : s.engineTurn = true) (hb : s.nextBranch = none) :
    nextAction s = if s.finalEnabled then .final else .idle := by
  rw [nextAction_engine he, engineAction, hb]

/-- Settles O36: FINAL is enabled only with both branches complete, and then there is no branch to take. -/
theorem finalOnlyAfterBothBranches : Obligations.FinalOnlyAfterBothBranches := by
  refine ⟨fun s hp hl hr he => ?final, fun s h => ?enabled⟩
  case final =>
    have none := nextBranch_of_complete hl hr
    exact ⟨none, by rw [nextAction_of_nextBranch_none he none, if_pos (finalEnabled_iff.mpr ⟨hp, hl, hr⟩)]⟩
  case enabled =>
    obtain ⟨hp, hl, hr⟩ := finalEnabled_iff.mp (finalEnabled_of_nextAction h)
    exact ⟨hp, hl, hr, nextBranch_of_complete hl hr⟩

/-- Outside a call the engine's turn ends with nothing changed. -/
theorem step_engine_of_not_inCall {s : State} (he : s.engineTurn = true) (hp : s.PH = .idle ∨ s.PH = .finalized) :
    step s = .next s.endTurn := by
  have noFinal : ¬ s.finalEnabled = true := by
    rw [finalEnabled_iff]
    rcases hp with h | h <;> simp [h]
  rw [step, nextAction_of_nextBranch_none he (nextBranch_of_not_inCall (not_inCall_iff.mpr hp)), if_neg noFinal]
  rfl

/-- Settles O47: a ROUND step while a branch has rounds left, then FINAL; outside a call, nothing. -/
theorem engineAlwaysProgresses : Obligations.EngineAlwaysProgresses := by
  refine ⟨fun s hi hg he hp => ?inCall, fun s => step_engine_of_not_inCall⟩
  have := hi.leftCount
  have := hi.rightCount
  by_cases full : s.JL = 80 ∧ s.JR = 80
  · obtain ⟨hl, hr⟩ := full
    have round : s.PH = .round := hp.resolve_left fun h => by
      have := hi.initialized h
      omega
    exact ⟨_, step_final he round hl hr, .inr ⟨by omega, rfl⟩⟩
  · obtain ⟨b, hb⟩ := nextBranch_total (inCall_iff.mpr hp) hi.leftCount hi.rightCount full
    exact ⟨_, step_round hg he hb rfl, .inl ⟨by omega, by simp, by simp [roundOn_rounds]⟩⟩

end Sys2Proof.Machine
end

section
/-! No step looks at data: lane vectors, message words and buffers (42_round_engine.md R125,
70_reset_and_hazards.md R192). -/

namespace Sys2Proof.Machine

/-- Two states agree on what decides which step is taken: `LANES`, `ROM`, the phase, the counters, and the
model's own turns and draws. -/
structure State.SameControl (s s' : State) : Prop where
  lanes : s'.lanes = s.lanes
  rom : s'.ROM = s.ROM
  phase : s'.PH = s.PH
  left : s'.JL = s.JL
  right : s'.JR = s.JR
  turns : s'.turns = s.turns
  draws : s'.draws = s.draws

namespace State.SameControl

variable {s s' : State}

/-! ### What is decided by the agreed fields -/

theorem n (h : s.SameControl s') : s'.n = s.n := congrArg LaneWidth.count h.lanes

theorem inCall (h : s.SameControl s') : s'.inCall = s.inCall := by
  rw [State.inCall, State.inCall, h.phase]

theorem count (h : s.SameControl s') (b : Branch) : s'.count b = s.count b := by
  cases b with
  | left => exact h.left
  | right => exact h.right

theorem roundEnabled (h : s.SameControl s') (b : Branch) : s'.roundEnabled b = s.roundEnabled b := by
  rw [State.roundEnabled, State.roundEnabled, h.inCall, h.count]

theorem nextBranch (h : s.SameControl s') : s'.nextBranch = s.nextBranch := by
  have preference : s'.preference = s.preference := by rw [State.preference, State.preference, h.turns]
  have default : s'.defaultBranch = s.defaultBranch := by rw [State.defaultBranch, State.defaultBranch, h.left, h.right]
  simp only [State.nextBranch, preference, default, h.roundEnabled]

theorem finalEnabled (h : s.SameControl s') : s'.finalEnabled = s.finalEnabled := by
  rw [State.finalEnabled, State.finalEnabled, h.phase, h.left, h.right]

theorem fetchEntry (h : s.SameControl s') (b : Branch) :
    fetchEntry s' (s'.romAddress b) = fetchEntry s (s.romAddress b) := by
  have address : s'.romAddress b = s.romAddress b := by
    cases b with
    | left => exact h.left
    | right => exact congrArg (80 + ·) h.right
  rw [Machine.fetchEntry, Machine.fetchEntry, address, h.rom]

theorem nextAction (h : s.SameControl s') : nextAction s' = nextAction s := by
  have engine : engineAction s' = engineAction s := by
    simp only [engineAction, h.nextBranch, h.fetchEntry, h.finalEnabled]
  rw [Machine.nextAction, Machine.nextAction, h.turns, engine]

/-! ### What keeps two states in agreement -/

theorem endTurn (h : s.SameControl s') : s.endTurn.SameControl s'.endTurn :=
  { h with turns := congrArg List.tail h.turns }

theorem withResult (h : s.SameControl s') (v v' : LaneVec) : (s.withResult v).SameControl (s'.withResult v') :=
  { h with }

theorem withPhase (h : s.SameControl s') (p : Phase) : (s.withPhase p).SameControl (s'.withPhase p) :=
  { h with phase := rfl }

theorem withS (h : s.SameControl s') (q q' : Quint) : (s.withS q).SameControl (s'.withS q') := { h with }

theorem withIN (h : s.SameControl s') (m m' : Memory) : (s.withIN m).SameControl (s'.withIN m') := { h with }

theorem withOUT (h : s.SameControl s') (m m' : Memory) : (s.withOUT m).SameControl (s'.withOUT m') := { h with }

theorem withReply (h : s.SameControl s') (r r' : Reply) : (s.withReply r).SameControl (s'.withReply r') := { h with }

theorem drew (h : s.SameControl s') {k k' : Nat} (hk : k' = k) : (s.drew k).SameControl (s'.drew k') :=
  { h with draws := congrArg₂ Nat.add h.draws hk }

theorem roundOn (h : s.SameControl s') (b : Branch) (fn : BaseFn) (k : Word) (idx : BitVec 4) (rot : BitVec 5) :
    (roundOn b fn k idx rot s).SameControl (roundOn b fn k idx rot s') := by
  cases b with
  | left => exact { h with phase := rfl, left := congrArg (· + 1) h.left }
  | right => exact { h with phase := rfl, right := congrArg (· + 1) h.right }

theorem start (h : s.SameControl s') : (start s).SameControl (start s') :=
  { h with
    phase := rfl
    left := rfl
    right := rfl
    draws := by simp only [Machine.start, h.draws, h.n] }

theorem final (h : s.SameControl s') : (final s).SameControl (final s') :=
  ((h.withS _ _).withOUT _ _).withPhase .finalized

/-- The free counters after hardware reset are those of the draws (log 20). -/
theorem hardwareReset (h : s.SameControl s') : (hardwareReset s).SameControl (hardwareReset s') :=
  { h with
    phase := rfl
    left := by simp only [Machine.hardwareReset, h.draws]
    right := by simp only [Machine.hardwareReset, h.draws]
    draws := by simp only [Machine.hardwareReset, h.draws, h.n] }

/-! ### Instructions, host actions, actions -/

theorem roundStep (h : s.SameControl s') {fn : BaseFn} {k : Word} {idx : BitVec 4} {rot : BitVec 5} {t : State}
    (ht : roundStep fn k idx rot s = .next t) : ∃ t', roundStep fn k idx rot s' = .next t' ∧ t.SameControl t' := by
  rw [Machine.roundStep] at ht ⊢
  rw [h.nextBranch]
  split at ht
  · cases ht
    exact ⟨_, rfl, h.roundOn _ fn k idx rot⟩
  · cases ht

/-- A primitive or a base function answers in every state; a ROUND micro-instruction where a branch is taken. -/
theorem exec (h : s.SameControl s') {i : Instr} {t : State} (ht : exec i s = .next t) :
    ∃ t', exec i s' = .next t' ∧ t.SameControl t' := by
  cases i with
  | loadRows => cases ht; exact ⟨_, rfl, (h.drew h.n).withResult _ _⟩
  | storeRows => cases ht; exact ⟨_, rfl, h.withOUT _ _⟩
  | broadcast | and | or | xor | not | add32 | rotl | byteswap | f1 | f2 | f3 | f4 | f5 =>
    cases ht; exact ⟨_, rfl, h.withResult _ _⟩
  | roundF1 | roundF2 | roundF3 | roundF4 | roundF5 => exact h.roundStep ht

/-- Whether a host action is legal is seen from the phase and its indices. -/
theorem hostStep (h : s.SameControl s') {a : HostAction} {t : State} (ht : hostStep a s = .next t) :
    ∃ t', hostStep a s' = .next t' ∧ t.SameControl t' := by
  rcases hostStep_cases ht with
    ⟨i, j, w, rfl, hc, hi, hj, rfl⟩ | ⟨rfl, hc, rfl⟩ | ⟨rfl, rfl⟩ | ⟨i, j, rfl, hp, hi, hj, rfl⟩
  · exact ⟨_, hostStep_writeIn (h.inCall.trans hc) (h.n ▸ hi) hj w, h.withIN _ _⟩
  · exact ⟨_, by rw [Machine.hostStep, hostStart, h.inCall, hc]; rfl, h.start⟩
  · exact ⟨_, rfl, h.withReply _ _⟩
  · exact ⟨_, hostStep_readOut (h.phase.trans hp) (h.n ▸ hi) hj, (h.withReply _ _).drew rfl⟩

theorem act (h : s.SameControl s') {a : Action} {t : State} (ht : act a s = .next t) :
    ∃ t', act a s' = .next t' ∧ t.SameControl t' := by
  cases a with
  | run c =>
    rw [Machine.act] at ht ⊢
    split at ht
    · exact h.exec ht
    · cases ht
  | noEntry a => cases ht
  | final => cases ht; exact ⟨_, rfl, h.final⟩
  | host a => exact h.hostStep ht
  | reset => cases ht; exact ⟨_, rfl, h.hardwareReset⟩
  | idle => cases ht; exact ⟨_, rfl, h⟩

end State.SameControl

/-- Settles O50: the two states take the same action, and every action keeps them in agreement. -/
theorem controlIsDataIndependent : Obligations.ControlIsDataIndependent := by
  intro s s' t lanes rom phase left right turns draws hs
  have same : s.SameControl s' := ⟨lanes, rom, phase, left, right, turns, draws⟩
  obtain ⟨u, hu, rfl⟩ := step_eq_next.mp hs
  obtain ⟨u', hu', after⟩ := same.act hu
  have hs' : step s' = .next u'.endTurn := step_eq_next.mpr ⟨u', same.nextAction ▸ hu', rfl⟩
  exact ⟨_, hs', after.phase, after.left, after.right, after.endTurn.turns, after.draws⟩

end Sys2Proof.Machine
end

section
/-! The schedule ROM (42_round_engine.md R131 to R139): what the check accepts, and that the ROM holds the
schedule. -/

namespace Sys2Proof.Machine

/-! ### The check on entries -/

theorem isIndexPermutation_iff {l : List Nat} :
    isIndexPermutation l = true ↔ l.length = 16 ∧ ∀ v, v < 16 → v ∈ l := by
  simp [isIndexPermutation]

/-- What stands in a stretch of a list stands in the list at one of the stretch's places. -/
theorem mem_stretch_iff {α : Type} {l : List α} {m n : Nat} {x : α} :
    x ∈ (l.drop n).take m ↔ ∃ a, n ≤ a ∧ a < n + m ∧ l[a]? = some x := by
  rw [List.mem_iff_getElem?]
  constructor
  · rintro ⟨i, hi⟩
    rw [List.getElem?_take, List.getElem?_drop] at hi
    split at hi
    case isTrue him => exact ⟨n + i, by omega, by omega, hi⟩
    case isFalse => cases hi
  · rintro ⟨a, hna, ham, ha⟩
    refine ⟨a - n, ?_⟩
    rw [List.getElem?_take_of_lt (by omega), List.getElem?_drop, Nat.add_sub_cancel' hna, ha]

/-- Each entry has the base function of its address. -/
theorem all_functions_iff {es : List Entry} (hl : es.length = 160) :
    ((List.range 160).zip es).all (fun p => BaseFn.ofNumber? (scheduleFn p.1) == some p.2.fn) = true ↔
      ∀ a e, es[a]? = some e → e.fn.number = scheduleFn a := by
  rw [List.all_eq_true]
  constructor
  · intro h a e he
    have ha : a < 160 := hl ▸ (List.getElem?_eq_some_iff.mp he).1
    have mem : (a, e) ∈ (List.range 160).zip es :=
      List.mem_of_getElem? (i := a) (List.getElem?_zip_eq_some.mpr ⟨List.getElem?_range ha, he⟩)
    exact (ofNumber?_scheduleFn ha e.fn).mp (h _ mem)
  · rintro h ⟨a, e⟩ mem
    obtain ⟨i, hi⟩ := List.mem_iff_getElem?.mp mem
    obtain ⟨hrange, he⟩ := List.getElem?_zip_eq_some.mp hi
    have hi160 : i < 160 := hl ▸ (List.getElem?_eq_some_iff.mp he).1
    obtain rfl : i = a := by simpa [List.getElem?_range hi160] using hrange
    exact (ofNumber?_scheduleFn hi160 e.fn).mpr (h i e he)

/-- Each group of sixteen has every index. -/
theorem all_groups_iff {es : List Entry} (hl : es.length = 160) :
    (groupsOf16 es 10).all (fun g => isIndexPermutation (g.map (fun e => e.idx.toNat))) = true ↔
      ∀ g v, g < 10 → v < 16 → ∃ a e, 16 * g ≤ a ∧ a < 16 * g + 16 ∧ es[a]? = some e ∧ e.idx.toNat = v := by
  have group {g : Nat} (hg : g < 10) :
      isIndexPermutation (((es.drop (16 * g)).take 16).map fun e => e.idx.toNat) = true ↔
        ∀ v, v < 16 → ∃ a e, 16 * g ≤ a ∧ a < 16 * g + 16 ∧ es[a]? = some e ∧ e.idx.toNat = v := by
    have sixteen : (((es.drop (16 * g)).take 16).map fun e => e.idx.toNat).length = 16 := by
      simp only [List.length_map, List.length_take, List.length_drop]
      omega
    simp only [isIndexPermutation_iff, sixteen, true_and, List.mem_map, mem_stretch_iff]
    refine forall₂_congr fun v _ => ⟨?_, ?_⟩
    · rintro ⟨e, ⟨a, ha, hb, he⟩, hv⟩; exact ⟨a, e, ha, hb, he, hv⟩
    · rintro ⟨a, e, ha, hb, he, hv⟩; exact ⟨e, ⟨a, ha, hb, he⟩, hv⟩
  rw [all_groupsOf16]
  exact ⟨fun h g v hg hv => (group hg).mp (h g hg) v hv,
    fun h g hg => (group hg).mpr fun v hv => h g v hg hv⟩

/-- The schedule check, address by address (42_round_engine.md R139). -/
theorem scheduleWf_iff {es : List Entry} : scheduleWf es = true ↔ es.length = 160 ∧
    (∀ a e, es[a]? = some e → e.fn.number = scheduleFn a) ∧
    ∀ g v, g < 10 → v < 16 → ∃ a e, 16 * g ≤ a ∧ a < 16 * g + 16 ∧ es[a]? = some e ∧ e.idx.toNat = v := by
  rw [scheduleWf, Bool.and_eq_true, Bool.and_eq_true, beq_iff_eq, and_assoc]
  exact and_congr_right fun hl => and_congr (all_functions_iff hl) (all_groups_iff hl)

/-! ### The check on a ROM -/

/-- A ROM passes when its words have entries and these pass the schedule check. -/
theorem romWf_iff {rom : List (BitVec 48)} :
    romWf rom = true ↔ ∃ es : List Entry, rom.map entryOfWord = es.map some ∧ scheduleWf es = true := by
  simp only [← mapM_eq_some_iff, romWf]
  cases rom.mapM entryOfWord <;> simp

/-- The index of a word's entry is the word's index field. -/
theorem idx_of_entryOfWord {w : BitVec 48} {e : Entry} (h : entryOfWord w = some e) : e.idx = entryIdx w := by
  obtain ⟨-, -, fn, -, hround⟩ := decode_s_eq_ok_iff.mp ((entryOfWord_eq_some_iff w e).mp h)
  have entry := congrArg Instr.entry? hround
  rw [entry?_round, entry?_round] at entry
  exact (congrArg Entry.idx (Option.some.inj entry)).symm

section
variable {rom : List (BitVec 48)} {es : List Entry} (hes : rom.map entryOfWord = es.map some)
include hes

theorem getElem?_entries {a : Nat} {e : Entry} :
    es[a]? = some e ↔ ∃ w, rom[a]? = some w ∧ entryOfWord w = some e := by
  have at_a := congrArg (·[a]?) hes
  simp only [List.getElem?_map] at at_a
  cases hw : rom[a]? <;> cases he : es[a]? <;> simp_all

/-- The schedule check on the entries of a ROM, in terms of the ROM's words. -/
theorem scheduleWf_entries_iff : scheduleWf es = true ↔ rom.length = 160 ∧
    (∀ a, a < 160 → ∃ w fn k idx rot, rom[a]? = some w ∧ decode (.s w) = .ok (.round fn k idx rot) ∧
      fn.number = scheduleFn a) ∧
    (∀ g v, g < 10 → v < 16 → ∃ a w, 16 * g ≤ a ∧ a < 16 * g + 16 ∧ rom[a]? = some w ∧ (entryIdx w).toNat = v) := by
  have length : es.length = rom.length := by simpa using (congrArg List.length hes).symm
  rw [scheduleWf_iff, length]
  refine and_congr_right fun hl => and_congr ⟨fun h a ha => ?entry, fun h a e he => ?function⟩
    (forall₄_congr fun g v _ _ => exists_congr fun a => ?index)
  case entry =>
    have he : es[a]? = some es[a] := List.getElem?_eq_getElem (by omega)
    obtain ⟨w, hw, hwe⟩ := (getElem?_entries hes).mp he
    exact ⟨w, _, _, _, _, hw, (entryOfWord_eq_some_iff w _).mp hwe, h a _ he⟩
  case function =>
    obtain ⟨w, fn, k, idx, rot, hw, hd, hf⟩ := h a (by have := (List.getElem?_eq_some_iff.mp he).1; omega)
    have he' : es[a]? = some ⟨fn, k, idx, rot⟩ :=
      (getElem?_entries hes).mpr ⟨w, hw, (entryOfWord_eq_some_iff w _).mpr hd⟩
    obtain rfl := Option.some.inj (he.symm.trans he')
    exact hf
  case index =>
    constructor
    · rintro ⟨e, ha, hb, he, hv⟩
      obtain ⟨w, hw, hwe⟩ := (getElem?_entries hes).mp he
      exact ⟨w, ha, hb, hw, idx_of_entryOfWord hwe ▸ hv⟩
    · rintro ⟨w, ha, hb, hw, hv⟩
      have inRom := (List.getElem?_eq_some_iff.mp hw).1
      have he : es[a]? = some es[a] := List.getElem?_eq_getElem (by omega)
      obtain ⟨w', hw', hwe⟩ := (getElem?_entries hes).mp he
      obtain rfl := Option.some.inj (hw.symm.trans hw')
      exact ⟨es[a], ha, hb, he, idx_of_entryOfWord hwe ▸ hv⟩

end

/-- Settles O4, by the entries of the ROM's words, which exist on both sides. -/
theorem romCheckAcceptsExactlySchedules : Obligations.RomCheckAcceptsExactlySchedules := by
  intro rom
  rw [romWf_iff]
  constructor
  · rintro ⟨es, hes, hwf⟩
    exact (scheduleWf_entries_iff hes).mp hwf
  · intro h
    have ⟨hl, legal, _⟩ := h
    have isSome : ∀ o ∈ rom.map entryOfWord, o.isSome = true := by
      intro o ho
      obtain ⟨w, hw, rfl⟩ := List.mem_map.mp ho
      obtain ⟨a, ha⟩ := List.mem_iff_getElem?.mp hw
      obtain ⟨w', fn, k, idx, rot, hw', hd, -⟩ := legal a (hl ▸ (List.getElem?_eq_some_iff.mp ha).1)
      obtain rfl := Option.some.inj (ha.symm.trans hw')
      exact Option.isSome_of_eq_some ((entryOfWord_eq_some_iff w ⟨fn, k, idx, rot⟩).mpr hd)
    have entries : rom.map entryOfWord = (rom.filterMap entryOfWord).map some := by
      rw [List.map_filterMap_some_eq_filter_map_isSome, List.filter_eq_self.mpr isSome]
    exact ⟨_, entries, (scheduleWf_entries_iff entries).mpr h⟩

/-! ### The contents of the ROM -/

theorem getElem?_eq_some_getD {α : Type} {l : List α} {j : Nat} (d : α) (hj : j < l.length) :
    l[j]? = some (l.getD j d) := by
  rw [List.getD_eq_getElem _ _ hj, List.getElem?_eq_getElem hj]

/-- A listed number that fits in `w` bits is the value of the `w`-bit field made from it. -/
theorem getElem?_eq_some_ofNat {l : List Nat} {w j : Nat} (fits : ∀ v ∈ l, v < 2 ^ w) (hj : j < l.length) :
    l[j]? = some (BitVec.ofNat w (l.getD j 0)).toNat := by
  have listed := getElem?_eq_some_getD 0 hj
  rw [BitVec.toNat_ofNat, Nat.mod_eq_of_lt (fits _ (List.mem_of_getElem? listed)), listed]

theorem number_groupFn {g : Nat} (hg : g < 5) : (groupFn g).number = g + 1 := by
  match g, hg with
  | 0, _ | 1, _ | 2, _ | 3, _ | 4, _ => rfl

/-- Settles O11: the words by computing them, and each entry by the tables `scheduleEntry` reads. -/
theorem romHoldsTheSchedule : Obligations.RomHoldsTheSchedule := by
  refine ⟨rfl, rfl, length_romTable, test_rom_accepted, fun j hj => ?left, fun j hj => ?right⟩
  case left =>
    obtain ⟨w, hw, hd⟩ := romTable_entry .left hj
    exact ⟨w, _, _, _, _, hw, hd, rfl, number_groupFn (by omega), getElem?_eq_some_getD 0 (show j / 16 < 5 by omega),
      getElem?_eq_some_ofNat (by decide) hj, getElem?_eq_some_ofNat (by decide) hj⟩
  case right =>
    obtain ⟨w, hw, hd⟩ := romTable_entry .right hj
    exact ⟨w, _, _, _, _, hw, hd, rfl, (number_groupFn (by omega)).trans (by omega),
      getElem?_eq_some_getD 0 (show j / 16 < 5 by omega),
      getElem?_eq_some_ofNat (by decide) hj, getElem?_eq_some_ofNat (by decide) hj⟩

end Sys2Proof.Machine
end

section
/-! FINAL and what a whole call leaves in `OUT` (43_block_finalizer.md R150 to R155). -/

namespace Sys2Proof.Machine

/-! ### What FINAL combines and stores -/

/-- A sum of three lane vectors, the form of R151's five sums, lane by lane. -/
theorem lane_addV_addV {n i : Nat} (x y z : LaneVec) (hi : i < n) :
    lane (addV n (addV n x y) z) i = lane x i + lane y i + lane z i := by
  rw [lane_addV _ _ hi, lane_addV _ _ hi]
  rfl

/-- FINAL's stores leave the byte-swapped word `j` of lane `i` at index `j` of the lane's row (R153). -/
theorem word?_storeDigest_row {n i j : Nat} (S : Quint) (m : Memory) (hi : i < n) (hj : j < 5) :
    (storeDigest n S m).word? (5 * i + j) = some (wordSwap ((S.laneAt i).get j)) := by
  have row : (5 * i + j) / 5 = i := by omega
  have index : (5 * i + j) % 5 = j := by omega
  rw [word?_storeDigest _ _ _ (by omega), row, index, bswap32_eq_wordSwap]

/-- FINAL's stores keep the canonical form. -/
theorem wf_storeDigest (n : Nat) (S : Quint) {m : Memory} (h : m.wf = true) : (storeDigest n S m).wf = true :=
  wf_storeRows n 5 4 _ (wf_storeRows n 5 3 _ (wf_storeRows n 5 2 _ (wf_storeRows n 5 1 _ (wf_storeRows n 5 0 _ h))))

/-- Settles O35: the engine's turn is FINAL, whose sums are read lane by lane and whose stores word by word. -/
theorem finalCombinesAndStores : Obligations.FinalCombinesAndStores := by
  intro s hp hl hr he
  generalize hq : combine s.n s.S s.L s.R = q
  have final : step s =
      .next { s with S := q, OUT := storeDigest s.n q s.OUT, PH := .finalized, turns := s.turns.tail } := by
    subst hq
    exact step_final he hp hl hr
  have stored {i j : Nat} (hi : i < s.n) (hj : j < 5) := word?_storeDigest_row q s.OUT hi hj
  refine ⟨q, storeDigest s.n q s.OUT, final, hq ▸ sized_combine s.n s.S s.L s.R, fun i hi => ?inLane,
    fun a => word?_storeDigest_outside s.n q s.OUT, wf_storeDigest s.n q⟩
  refine ⟨?_, ?_, ?_, ?_, ?_, stored hi (j := 0) (by decide), stored hi (j := 1) (by decide),
    stored hi (j := 2) (by decide), stored hi (j := 3) (by decide), stored hi (j := 4) (by decide)⟩
  all_goals
    subst hq
    exact lane_addV_addV _ _ _ hi

/-! ### A whole call -/

/-- Settles O51, by the state in which START and 161 engine turns end a call, in any issue order. -/
theorem wholeCallComputesCompress : Obligations.WholeCallComputesCompress := by
  intro s picks rest hi hg hp hl ht
  obtain ⟨t, run, done, turns⟩ := run_call hi hg hp hl ht
  obtain ⟨left, right, -⟩ := done.inv.finalized done.finalized
  exact ⟨t, run, done.finalized, left, right, turns, done.input, fun i hi m hm j hj => done.digest hi hm hj⟩

end Sys2Proof.Machine
end

section
/-! Where a step answers, and what it touches in a system of instances (60_exceptions.md R160, R170). -/

namespace Sys2Proof.Machine

/-! ### Instructions that always answer -/

/-- Only a micro-instruction of format S can be refused: a primitive or a base function answers in every state. -/
theorem exists_exec_of_entry?_eq_none {i : Instr} (h : i.entry? = none) (s : State) : ∃ t, exec i s = .next t := by
  cases i with
  | broadcast | loadRows | storeRows | and | or | xor | not | add32 | rotl | byteswap => exact ⟨_, rfl⟩
  | f1 | f2 | f3 | f4 | f5 => exact ⟨_, rfl⟩
  | roundF1 | roundF2 | roundF3 | roundF4 | roundF5 => cases h

/-- No code of format P names a micro-instruction of format S. -/
theorem entry?_of_decodeLvop : ∀ w : BitVec 4, ∀ i ∈ decodeLvop w, i.entry? = none := by decide

theorem entry?_function (fn : BaseFn) : (Instr.function fn).entry? = none := by cases fn <;> rfl

/-- A code that names no micro-instruction of format S runs exactly when it is not reserved. -/
theorem exists_act_run_iff {c : Code} (s : State) (h : ∀ i, decode c = .ok i → i.entry? = none) :
    (∃ t, act (.run c) s = .next t) ↔ ¬ ∃ e, decode c = .error e := by
  rw [act]
  cases hd : decode c with
  | ok i => simpa using exists_exec_of_entry?_eq_none (h i hd) s
  | error e => simp

theorem exists_act_lvop_iff (w : BitVec 4) (s : State) : (∃ t, act (.run (.p w)) s = .next t) ↔ w.toNat < 10 := by
  rw [exists_act_run_iff s fun i hd => entry?_of_decodeLvop w i (decode_p_eq_ok_iff.mp hd), exists_decode_p_error_iff,
    Nat.not_le]

theorem exists_act_fn_iff (w : BitVec 3) (s : State) :
    (∃ t, act (.run (.f w)) s = .next t) ↔ 1 ≤ w.toNat ∧ w.toNat ≤ 5 := by
  have function {i : Instr} (hd : decode (.f w) = .ok i) : i.entry? = none := by
    obtain ⟨fn, -, rfl⟩ := decode_f_eq_ok_iff.mp hd
    exact entry?_function fn
  rw [exists_act_run_iff s fun _ => function, exists_decode_f_error_iff]
  omega

/-! ### Host actions (10_state.md table T-10.2) -/

theorem exists_hostStep_writeIn_iff {i j : Nat} {w : Word} {s : State} :
    (∃ t, hostStep (.writeIn i j w) s = .next t) ↔ (s.PH = .idle ∨ s.PH = .finalized) ∧ i < s.n ∧ j < 16 := by
  rw [← not_inCall_iff]
  constructor
  · rintro ⟨t, ht⟩
    obtain ⟨hc, hi, hj, -⟩ := by simpa using hostStep_cases ht
    exact ⟨hc, hi, hj⟩
  · rintro ⟨hc, hi, hj⟩
    exact ⟨_, hostStep_writeIn hc hi hj w⟩

theorem exists_hostStep_start_iff {s : State} :
    (∃ t, hostStep .start s = .next t) ↔ s.PH = .idle ∨ s.PH = .finalized := by
  rw [← not_inCall_iff, hostStep, hostStart]
  cases s.inCall <;> simp

theorem exists_hostStep_readOut_iff {i j : Nat} {s : State} :
    (∃ t, hostStep (.readOut i j) s = .next t) ↔ s.PH = .finalized ∧ i < s.n ∧ j < 5 := by
  constructor
  · rintro ⟨t, ht⟩
    obtain ⟨hp, hi, hj, -⟩ := by simpa using hostStep_cases ht
    exact ⟨hp, hi, hj⟩
  · rintro ⟨hp, hi, hj⟩
    exact ⟨_, hostStep_readOut hp hi hj⟩

/-- A host action answers exactly where its row of table T-10.2 allows it. -/
theorem exists_hostStep_iff_turnLegal {s : State} {a : HostAction} {rest : List Turn} (h : s.turns = .host a :: rest) :
    (∃ t, hostStep a s = .next t) ↔ s.turnLegal = true := by
  rw [State.turnLegal, h]
  cases a with
  | writeIn i j w => simp [exists_hostStep_writeIn_iff, and_assoc]
  | start => simp [exists_hostStep_start_iff]
  | readStatus => simp [hostStep, hostReadStatus]
  | readOut i j => simp [exists_hostStep_readOut_iff, and_assoc]

/-! ### Steps -/

/-- A step answers exactly when its action does. -/
theorem exists_step_iff {s : State} {a : Action} (h : nextAction s = a) :
    (∃ t, step s = .next t) ↔ ∃ t, act a s = .next t := by
  simp [step_eq_next, h]

/-- The engine's turn always answers: it progresses in a call and waits outside one. -/
theorem exists_step_of_engineTurn {s : State} (hi : s.Inv) (hg : s.Genuine) (he : s.engineTurn = true) :
    ∃ t, step s = .next t := by
  obtain ⟨progress, wait⟩ := engineAlwaysProgresses
  cases hc : s.inCall with
  | true =>
    obtain ⟨t, ht, -⟩ := progress s hi hg he (inCall_iff.mp hc)
    exact ⟨t, ht⟩
  | false => exact ⟨_, wait s he (not_inCall_iff.mp hc)⟩

/-- Settles O46: there is no fault to answer, and the agent at the head of `turns` is answered as its turn's
legality says. -/
theorem stepAnswersExactlyOnLegalTurns : Obligations.StepAnswersExactlyOnLegalTurns := by
  refine ⟨fun _ => nofun, fun s hi hg => ?legal⟩
  match ht : s.turns with
  | [] | .engine _ :: _ =>
    have answers := exists_step_of_engineTurn hi hg (by rw [State.engineTurn, ht])
    simpa [State.turnLegal, ht] using answers
  | .reset :: _ => simp [exists_step_iff (by rw [nextAction, ht]), act, State.turnLegal, ht]
  | .host a :: _ =>
    rw [exists_step_iff (a := .host a) (by rw [nextAction, ht]), act, exists_hostStep_iff_turnLegal ht]
  | .lvop w :: _ =>
    rw [exists_step_iff (nextAction_of_lvop ht), exists_act_lvop_iff, State.turnLegal, ht, decide_eq_true_iff]
  | .fn w :: _ =>
    rw [exists_step_iff (nextAction_of_fn ht), exists_act_fn_iff, State.turnLegal, ht]
    simp

/-! ### Several instances -/

/-- A step of a system is a step of its instance `k`, put back in its place; with no instance `k` nothing moves. -/
theorem stepInstance_cases {k : Nat} {sys sys' : List State} (h : stepInstance k sys = .next sys') :
    (∃ s t, sys[k]? = some s ∧ step s = .next t ∧ sys' = sys.set k t) ∨ (sys[k]? = none ∧ sys' = sys) := by
  rw [stepInstance] at h
  cases hk : sys[k]? with
  | some s =>
    cases hs : step s with
    | next t => exact .inl ⟨s, t, rfl, hs, by simpa [hk, hs] using h.symm⟩
    | fault f => cases f
    | refused r => simp [hk, hs] at h
  | none => exact .inr ⟨rfl, by simpa [hk] using h.symm⟩

/-- Settles O54: setting the instance that moved leaves every other one. -/
theorem instancesShareNoState : Obligations.InstancesShareNoState := by
  intro k l sys sys' h
  rcases stepInstance_cases h with ⟨s, t, hk, ht, rfl⟩ | ⟨hk, rfl⟩
  · obtain ⟨inRange, -⟩ := List.getElem?_eq_some_iff.mp hk
    refine ⟨List.length_set, fun other => List.getElem?_set_ne other, fun s' hs' => ⟨t, ?_, List.getElem?_set_self inRange⟩⟩
    obtain rfl : s = s' := Option.some.inj (hk.symm.trans hs')
    exact ht
  · exact ⟨rfl, fun _ => rfl, fun s hs => by simp [hk] at hs⟩

end Sys2Proof.Machine
end

section
/-! Reset, the hazards at the host's interface and the framed block of a short message
(70_reset_and_hazards.md R180, R182 to R185). -/

namespace Sys2Proof.Machine

/-! ### Host actions out of phase -/

/-- While a call is in progress every write of `IN` is refused, whatever its lane and index. -/
theorem hostStep_writeIn_of_inCall {s : State} (hc : s.inCall = true) (i j : Nat) (w : Word) :
    hostStep (.writeIn i j w) s = .refused .hostWriteInCall := by
  rw [hostStep, hostWriteIn, if_pos hc]

theorem hostStep_start_of_inCall {s : State} (hc : s.inCall = true) : hostStep .start s = .refused .hostStartInCall := by
  rw [hostStep, hostStart, if_pos hc]

/-- Outside FINALIZED every read of `OUT` is refused, whatever its lane and index. -/
theorem hostStep_readOut_of_not_finalized {s : State} (hp : s.PH ≠ .finalized) (i j : Nat) :
    hostStep (.readOut i j) s = .refused .hostReadOutNotFinalized := by
  rw [hostStep, hostReadOut, if_neg hp]

/-- A refused host action is a refused step. -/
theorem step_of_host_refused {s : State} {a : HostAction} {r : Refusal} {rest : List Turn}
    (ht : s.turns = .host a :: rest) (hr : hostStep a s = .refused r) : step s = .refused r := by
  rw [step_of_host ht, hr, afterNext]

/-- Settles O37, by the phase each of the three actions looks at before its indices. -/
theorem illegalHostActionsRefused : Obligations.IllegalHostActionsRefused := by
  refine fun s rest => ⟨fun hp => ⟨fun ht => ?start, fun i j w ht => ?write⟩, fun hp i j ht => ?read⟩
  case start => exact step_of_host_refused ht (hostStep_start_of_inCall (inCall_iff.mpr hp))
  case write => exact step_of_host_refused ht (hostStep_writeIn_of_inCall (inCall_iff.mpr hp) i j w)
  case read => exact step_of_host_refused ht (hostStep_readOut_of_not_finalized hp i j)

/-! ### The state right after reset -/

@[simp] theorem length_zeroVec (n : Nat) : (zeroVec n).length = n := List.length_replicate

theorem sized_zeroQuint (n : Nat) : (zeroQuint n).Sized n :=
  ⟨length_zeroVec n, length_zeroVec n, length_zeroVec n, length_zeroVec n, length_zeroVec n⟩

theorem inv_resetOf (w : LaneWidth) (rom : List (BitVec 48)) : (State.resetOf w rom).Inv where
  svec := sized_zeroQuint _
  left := sized_zeroQuint _
  right := sized_zeroQuint _
  messages := List.length_replicate
  messageLanes := fun v hv => by rw [List.eq_of_mem_replicate hv]; exact length_zeroVec _
  leftCount := Nat.zero_le 80
  rightCount := Nat.zero_le 80
  input := Memory.Good.nil _
  output := Memory.Good.nil _
  initialized := fun hp => nomatch hp
  round := fun hp => nomatch hp
  finalized := fun hp => nomatch hp

/-- In IDLE no call is in progress and no digest is claimed. -/
theorem onSchedule_of_idle {s : State} (hp : s.PH = .idle) : s.OnSchedule := by
  have hc : s.inCall = false := not_inCall_iff.mpr (.inl hp)
  exact ⟨by simp [hc], by simp [hc], by simp [hc], by simp [hp]⟩

/-- On its turn outside a call the engine has no enabled step. -/
theorem nextAction_of_not_inCall {s : State} (he : s.engineTurn = true) (hp : s.PH = .idle ∨ s.PH = .finalized) :
    nextAction s = .idle := by
  have noFinal : ¬ s.finalEnabled = true := fun h => by
    obtain ⟨round, -⟩ := finalEnabled_iff.mp h
    simp [round] at hp
  rw [nextAction_of_nextBranch_none he (nextBranch_of_not_inCall (not_inCall_iff.mpr hp)), if_neg noFinal]

/-- Settles O1: every field is the one `State.resetOf` gives, and in IDLE the engine has no enabled step. -/
theorem resetWaitsInIdle : Obligations.ResetWaitsInIdle :=
  ⟨rfl, fun _ => ⟨rfl, rfl, rfl, rfl, rfl, rfl, fun _ => ⟨rfl, rfl⟩, nextAction_of_not_inCall rfl (.inl rfl)⟩⟩

/-- Settles O2, with the registers' zeros of the right number of lanes. -/
theorem resetMeetsInvariant : Obligations.ResetMeetsInvariant :=
  fun w => ⟨inv_resetOf w romTable, ⟨rfl, rfl⟩, onSchedule_of_idle rfl⟩

/-! ### The hardware reset event -/

/-- With hardware reset at the head, the step is the reset and the end of its turn. -/
theorem step_of_reset {s : State} {rest : List Turn} (ht : s.turns = .reset :: rest) :
    step s = .next (hardwareReset s).endTurn := by
  have next : nextAction s = .reset := by rw [nextAction, ht]
  rw [step, next, act, afterNext]

/-- Settles O5, with the counters in their range by the invariant that reset establishes. -/
theorem hardwareResetGoesToIdle : Obligations.HardwareResetGoesToIdle := by
  intro s rest ht
  have hinv := inv_hardwareReset s
  have turns : (hardwareReset s).endTurn.turns = rest := congrArg List.tail ht
  refine ⟨_, step_of_reset ht, rfl, rfl, hinv.leftCount, hinv.rightCount, fun _ => ⟨rfl, rfl⟩, rfl, rfl, rfl, rfl, rfl,
    turns, fun hr => nextAction_of_not_inCall ?engine (.inl rfl)⟩
  case engine => rw [State.engineTurn, turns, hr]

/-! ### The framed block (70_reset_and_hazards.md R182 (3)) -/

/-- The first 56 bytes of a framed block: the message, `0x80`, zeros. -/
def paddedMessage (m : List Byte) : List Byte := m ++ 0x80 :: List.replicate (55 - m.length) 0

/-- The last 8 bytes of the framed block of `n` bytes: the bit length, little-endian. -/
def lengthBytes (n : Nat) : List Byte := (List.range 8).map fun k => BitVec.ofNat 8 (8 * n / 2 ^ (8 * k))

theorem frameMessage_of_le {m : List Byte} (h : m.length ≤ 55) :
    frameMessage m = some (paddedMessage m ++ lengthBytes m.length) := by
  simp [frameMessage, h, paddedMessage, lengthBytes]

theorem frameMessage_of_lt {m : List Byte} (h : 55 < m.length) : frameMessage m = none := by
  rw [frameMessage, if_neg (Nat.not_le.mpr h)]

theorem length_paddedMessage {m : List Byte} (h : m.length ≤ 55) : (paddedMessage m).length = 56 := by
  simp only [paddedMessage, List.length_append, List.length_cons, List.length_replicate]
  omega

theorem length_lengthBytes (n : Nat) : (lengthBytes n).length = 8 := by
  rw [lengthBytes, List.length_map, List.length_range]

theorem getElem?_paddedMessage_of_lt {m : List Byte} {k : Nat} (h : k < m.length) : (paddedMessage m)[k]? = m[k]? :=
  List.getElem?_append_left h

theorem getElem?_paddedMessage_length (m : List Byte) : (paddedMessage m)[m.length]? = some 0x80 := by
  simp [paddedMessage]

theorem getElem?_paddedMessage_of_gt {m : List Byte} {k : Nat} (h : m.length < k) (hk : k < 56) :
    (paddedMessage m)[k]? = some 0 := by
  obtain ⟨d, rfl⟩ := Nat.exists_eq_add_of_lt h
  rw [paddedMessage, List.getElem?_append_right (by omega), show m.length + d + 1 - m.length = d + 1 by omega,
    List.getElem?_cons_succ, List.getElem?_replicate_of_lt (by omega)]

/-- A prefix of whole words is packed on its own. -/
theorem packBytes_append {p : List Byte} (h : 4 ∣ p.length) (q : List Byte) :
    packBytes (p ++ q) = packBytes p ++ packBytes q := by
  fun_induction packBytes p with
  | case1 m0 m1 m2 m3 rest ih =>
    have whole : 4 ∣ rest.length := (Nat.dvd_add_left (dvd_refl 4)).mp h
    exact congrArg (packWord m0 m1 m2 m3 :: ·) (ih whole)
  | case2 p short =>
    have empty : p = [] := List.eq_nil_of_length_eq_zero
      (Nat.eq_zero_of_dvd_of_lt h (length_lt_four_of_not_cons short))
    rw [empty, List.nil_append, List.nil_append]

/-- The bit length of a message of at most 55 bytes fits the first two of its eight bytes. -/
theorem lengthBytes_of_le {n : Nat} (h : n ≤ 55) :
    lengthBytes n = [BitVec.ofNat 8 (8 * n), BitVec.ofNat 8 (8 * n / 2 ^ 8), 0, 0, 0, 0, 0, 0] := by
  have high {d : Nat} (hd : 2 ^ 16 ≤ d) : 8 * n / d = 0 := Nat.div_eq_of_lt (by omega)
  simp [lengthBytes, List.range_succ, high]

/-- The last two words of a framed block are the bit length and 0. -/
theorem packBytes_lengthBytes {n : Nat} (h : n ≤ 55) : packBytes (lengthBytes n) = [BitVec.ofNat 32 (8 * n), 0] := by
  have low : packWord (BitVec.ofNat 8 (8 * n)) (BitVec.ofNat 8 (8 * n / 2 ^ 8)) 0 0 = BitVec.ofNat 32 (8 * n) := by
    apply BitVec.eq_of_toNat_eq
    rw [toNat_packWord]
    simp only [BitVec.toNat_ofNat, BitVec.ofNat_eq_ofNat]
    omega
  rw [lengthBytes_of_le h, packBytes, low]
  rfl

/-- Word `14 + j` of a framed block is word `j` of its bit length. -/
theorem getD_packBytes_framed {m : List Byte} (h : m.length ≤ 55) (j : Nat) :
    (packBytes (paddedMessage m ++ lengthBytes m.length)).getD (14 + j) 0 =
      [BitVec.ofNat 32 (8 * m.length), 0].getD j 0 := by
  have hp := length_paddedMessage h
  have words : (packBytes (paddedMessage m)).length = 14 := by rw [length_packBytes, hp]
  rw [packBytes_append (by rw [hp]; decide), packBytes_lengthBytes h, List.getD_append_right _ _ _ _ (by omega), words,
    Nat.add_sub_cancel_left]

/-- Settles O57: the first 56 bytes are the padded message, the last two words its bit length. -/
theorem framedBlockOfShortMessage : Obligations.FramedBlockOfShortMessage := by
  refine ⟨fun m hm => ⟨_, frameMessage_of_le hm, ?length, fun k hk => ?message, ?mark, fun k hk h56 => ?zeros,
    ?bitLength, getD_packBytes_framed hm 1⟩, fun m => frameMessage_of_lt⟩
  all_goals have hp := length_paddedMessage hm
  case length => rw [List.length_append, hp, length_lengthBytes]
  case message => rw [List.getElem?_append_left (by omega), getElem?_paddedMessage_of_lt hk]
  case mark => rw [List.getElem?_append_left (by omega), getElem?_paddedMessage_length]
  case zeros => rw [List.getElem?_append_left (by omega), getElem?_paddedMessage_of_gt hk h56]
  case bitLength =>
    rw [getD_packBytes_framed hm 0, List.getD_cons_zero, BitVec.toNat_ofNat, Nat.mod_eq_of_lt (by omega)]

end Sys2Proof.Machine
end

section
/-! The truth table of the base functions (41_base_functions_round.md table T-41.1) and the words the
spec's decoder table lists (95_test_vectors.md V-D70). -/

namespace Sys2Proof.Machine

/-! ### The base functions bit by bit -/

/-- A base function run on its own leaves its value of the port's three operands (log 7). -/
theorem exec_function (fn : BaseFn) (s : State) :
    exec (.function fn) s = .next (s.withResult (selectFn s.n fn s.port.x s.port.y s.port.z)) := by
  cases fn <;> rfl

theorem getLsbD_wordFn_f1 (b c d : Word) (m : Nat) :
    (wordFn .f1 b c d).getLsbD m = ((b.getLsbD m ^^ c.getLsbD m) ^^ d.getLsbD m) := by
  rw [wordFn, BitVec.getLsbD_xor, BitVec.getLsbD_xor]

/-- The complement in `F3` is that of the 32 bits only. -/
theorem getLsbD_wordFn_f3 (b c d : Word) {m : Nat} (hm : m < 32) :
    (wordFn .f3 b c d).getLsbD m = ((b.getLsbD m || !c.getLsbD m) ^^ d.getLsbD m) := by
  rw [wordFn, BitVec.getLsbD_xor, BitVec.getLsbD_or, BitVec.getLsbD_not, decide_eq_true hm, Bool.true_and]

/-- R113: bit `m` of `F4` is that of `b` where `d` has a 1 and that of `c` where it has a 0. -/
theorem getLsbD_wordFn_f4 (b c d : Word) (m : Nat) :
    (wordFn .f4 b c d).getLsbD m = if d.getLsbD m then b.getLsbD m else c.getLsbD m := by
  rw [wordFn_f4_eq_f2, getLsbD_wordFn_f2]

theorem getLsbD_wordFn_f5 (b c d : Word) {m : Nat} (hm : m < 32) :
    (wordFn .f5 b c d).getLsbD m = (b.getLsbD m ^^ (c.getLsbD m || !d.getLsbD m)) := by
  rw [wordFn_f5_eq_f3, getLsbD_wordFn_f3 _ _ _ hm, Bool.xor_comm]

/-- Settles O26: each lane is the function on words, and each of its bits is a formula or a select. -/
theorem baseFunctionsFollowTruthTable : Obligations.BaseFunctionsFollowTruthTable := by
  intro fn s
  refine ⟨_, exec_function fn s, length_selectFn s.n fn _ _ _, fun i hi m hm => ?bit⟩
  rw [lane_selectFn fn _ _ _ hi]
  cases fn with
  | f1 => exact getLsbD_wordFn_f1 _ _ _ m
  | f2 => rw [getLsbD_wordFn_f2]; cases (lane s.port.x i).getLsbD m <;> rfl
  | f3 => exact getLsbD_wordFn_f3 _ _ _ hm
  | f4 => rw [getLsbD_wordFn_f4]; cases (lane s.port.z i).getLsbD m <;> rfl
  | f5 => exact getLsbD_wordFn_f5 _ _ _ hm

/-! ### The decoder table of the spec -/

/-- Settles O10: each legal entry is the encoding of what it decodes to; the reserved words and the two
short codes are read from their bits. -/
theorem wordsDecodeAsTheSpecLists : Obligations.WordsDecodeAsTheSpecLists :=
  ⟨decode_encodeEntry .f1 0x00000000 0 11, decode_encodeEntry .f2 0x5A827999 7 7,
    decode_encodeEntry .f5 0x50A28BE6 5 8, decode_encodeEntry .f5 0xA953FD4E 13 6,
    decode_encodeEntry .f1 0xFFFFFFFF 15 31, rfl, rfl, rfl, rfl⟩

end Sys2Proof.Machine
end

section
/-! What a step may write, case by case: the phase and the counters (42_round_engine.md table T-42.1) and
the other registers and buffers (10_state.md table T-10.3). -/

namespace Sys2Proof.Machine

/-! ### What one step can be -/

/-- The turn at the head, if there is one, is a step of the spec (log 7). -/
def State.specTurn (s : State) : Prop := ∀ u ∈ s.turns.head?, u.ofSpec = true

/-- The steps from `s`, each with the state it leads to and a condition it is taken under. What `port`, `store`,
`writeIn`, `readStatus` and `readOut` write is left open: only where they write is said. -/
inductive StepTo (s : State) : State → Prop
  | port (d : Nat) (v : LaneVec) (own : ¬ s.specTurn) : StepTo s ((s.drew d).withResult v).endTurn
  | store (m : Memory) (own : ¬ s.specTurn) : StepTo s (s.withOUT m).endTurn
  | round (b : Branch) (fn : BaseFn) (k : Word) (idx : BitVec 4) (rot : BitVec 5) (taken : s.nextBranch = some b) :
      StepTo s (roundOn b fn k idx rot s).endTurn
  | final (enabled : s.finalEnabled = true) : StepTo s (final s).endTurn
  | writeIn (i j : Nat) (w : Word) (m : Memory) (turn : s.turns.head? = some (.host (.writeIn i j w))) :
      StepTo s (s.withIN m).endTurn
  | start (turn : s.turns.head? = some (.host .start)) (waits : s.inCall = false) : StepTo s (start s).endTurn
  | readStatus (r : Reply) (turn : s.turns.head? = some (.host .readStatus)) : StepTo s (s.withReply r).endTurn
  | readOut (i j : Nat) (r : Reply) (turn : s.turns.head? = some (.host (.readOut i j))) :
      StepTo s ((s.withReply r).drew 1).endTurn
  | reset (turn : s.turns.head? = some .reset) : StepTo s (hardwareReset s).endTurn
  | wait : StepTo s s.endTurn

/-- A ROM entry that answers is the ROUND step of the branch the engine takes. -/
theorem roundOn_of_exec_entry {w : BitVec 48} {i : Instr} {s u : State} (hd : decode (.s w) = .ok i)
    (hu : exec i s = .next u) :
    ∃ b fn k idx rot, s.nextBranch = some b ∧ u = roundOn b fn k idx rot s := by
  obtain ⟨-, -, fn, -, rfl⟩ := decode_s_eq_ok_iff.mp hd
  rw [exec_round, roundStep] at hu
  cases hb : s.nextBranch with
  | none => rw [hb] at hu; cases hu
  | some b => rw [hb] at hu; cases hu; exact ⟨b, fn, _, _, _, rfl, rfl⟩

/-- On the model's own turns an instruction may also leave a result in the port or store to `OUT`. -/
theorem stepTo_of_exec_own {i : Instr} {s u : State} (own : ¬ s.specTurn) (hu : exec i s = .next u) :
    StepTo s u.endTurn := by
  rcases exec_cases hu with ⟨d, v, -, rfl⟩ | rfl | ⟨b, fn, k, idx, rot, -, hb, rfl⟩
  · exact .port d v own
  · exact .store _ own
  · exact .round b fn k idx rot hb

theorem stepTo_of_run {c : Code} {i : Instr} {s u : State} (hn : nextAction s = .run c) (hd : decode c = .ok i)
    (hu : exec i s = .next u) : StepTo s u.endTurn := by
  rcases nextAction_run hn with ⟨b, w, -, -, rfl⟩ | ⟨w, rest, ht, -⟩ | ⟨w, rest, ht, -⟩
  · obtain ⟨b, fn, k, idx, rot, hb, rfl⟩ := roundOn_of_exec_entry hd hu
    exact .round b fn k idx rot hb
  · exact stepTo_of_exec_own (by simp [State.specTurn, ht, Turn.ofSpec]) hu
  · exact stepTo_of_exec_own (by simp [State.specTurn, ht, Turn.ofSpec]) hu

theorem stepTo_of_host {a : HostAction} {s u : State} (hn : nextAction s = .host a) (hu : hostStep a s = .next u) :
    StepTo s u.endTurn := by
  have turn := turns_of_host hn
  rcases hostStep_cases hu with
    ⟨i, j, w, rfl, -, -, -, rfl⟩ | ⟨rfl, hc, rfl⟩ | ⟨rfl, rfl⟩ | ⟨i, j, rfl, -, -, -, rfl⟩
  · exact .writeIn i j w _ turn
  · exact .start turn hc
  · exact .readStatus _ turn
  · exact .readOut i j _ turn

/-- A step that answers is one of these. -/
theorem stepTo_of_step {s t : State} (h : step s = .next t) : StepTo s t := by
  rcases step_cases h with ⟨c, i, u, hn, hd, hu, rfl⟩ | ⟨-, he, rfl⟩ | ⟨a, u, hn, hu, rfl⟩ | ⟨hn, rfl⟩ | ⟨-, rfl⟩
  · exact stepTo_of_run hn hd hu
  · exact .final he
  · exact stepTo_of_host hn hu
  · exact .reset (turns_of_reset hn)
  · exact .wait

/-! ### The phase and the counters -/

/-- Settles O45, step by step: four kinds of step change the phase or a counter. -/
theorem phaseFollowsTransitionTable : Obligations.PhaseFollowsTransitionTable := by
  intro s t h
  cases stepTo_of_step h with
  | port | store | writeIn | readStatus | readOut | wait => exact .inl ⟨rfl, rfl, rfl⟩
  | reset turn => exact .inr (.inl ⟨turn, rfl⟩)
  | start turn waits => exact .inr (.inr (.inl ⟨turn, not_inCall_iff.mp waits, rfl, rfl, rfl⟩))
  | round b fn k idx rot taken =>
    obtain ⟨hc, hlt⟩ := enabled_of_nextBranch taken
    cases b with
    | left => exact .inr (.inr (.inr (.inl ⟨inCall_iff.mp hc, hlt, rfl, rfl, rfl⟩)))
    | right => exact .inr (.inr (.inr (.inr (.inl ⟨inCall_iff.mp hc, hlt, rfl, rfl, rfl⟩))))
  | final enabled =>
    obtain ⟨hp, hl, hr⟩ := finalEnabled_iff.mp enabled
    exact .inr (.inr (.inr (.inr (.inr ⟨hp, hl, hr, rfl, hl, hr⟩))))

/-! ### The access table -/

/-- Settles O48, step by step: what a step does not list is the same field of the same state. -/
theorem stepWritesOnlyItsRow : Obligations.StepWritesOnlyItsRow := by
  intro s t h spec notReset
  cases stepTo_of_step h with
  | port _ _ own | store _ own => exact absurd spec own
  | reset turn => exact absurd turn notReset
  | wait =>
    exact ⟨absurd rfl, absurd rfl, absurd rfl, absurd rfl, absurd rfl, absurd rfl, absurd rfl, rfl⟩
  | writeIn i j w m turn =>
    exact ⟨fun _ => ⟨i, j, w, turn⟩, absurd rfl, absurd rfl, absurd rfl, absurd rfl, absurd rfl, absurd rfl, rfl⟩
  | readStatus r turn =>
    exact ⟨absurd rfl, absurd rfl, absurd rfl, absurd rfl, absurd rfl, absurd rfl, fun _ => .inl turn, rfl⟩
  | readOut i j r turn =>
    exact ⟨absurd rfl, absurd rfl, absurd rfl, absurd rfl, absurd rfl, absurd rfl, fun _ => .inr ⟨i, j, turn⟩, rfl⟩
  | start turn _ =>
    exact ⟨absurd rfl, absurd rfl, fun _ => turn, fun _ => .inl turn, fun _ => .inl turn, fun _ => .inl turn,
      absurd rfl, rfl⟩
  | round b fn k idx rot _ =>
    cases b with
    | left =>
      exact ⟨absurd rfl, absurd rfl, absurd rfl, absurd rfl, fun _ => .inr ⟨rfl, rfl⟩, absurd rfl, absurd rfl, rfl⟩
    | right =>
      exact ⟨absurd rfl, absurd rfl, absurd rfl, absurd rfl, absurd rfl, fun _ => .inr ⟨rfl, rfl⟩, absurd rfl, rfl⟩
  | final enabled =>
    obtain ⟨hp, -, -⟩ := finalEnabled_iff.mp enabled
    exact ⟨absurd rfl, fun _ => ⟨hp, rfl⟩, absurd rfl, fun _ => .inr ⟨hp, rfl⟩, absurd rfl, absurd rfl, absurd rfl, rfl⟩

end Sys2Proof.Machine
end
